-- ==== Sys2Proof/Word.lean ====
section
/-! DEFINITION. The machine's word types (spec/00_scope.md R6, R8). -/

namespace Sys2Proof

/-- Every stored value of the machine is an unsigned integer of 8 bits (00_scope.md R8). -/
abbrev Byte := BitVec 8

/-- The program counter is a 9-bit quantity that holds 0..256 only (10_state.md R24, PC_BITS of 00_scope.md R6). -/
abbrev PcWord := BitVec 9

/-- An index into the register file of eight registers (10_state.md R20). -/
abbrev RegIdx := Fin 8

end Sys2Proof
end

