-- ==== Sys2Proof/Config.lean ====
section
/-! DEFINITION. What one implementation fixes: the named parameters of spec/00_scope.md R6, each at the value the spec gives.

The machine has no free value: spec/93_implementation_defined.md says that no behaviour is left undefined. -/

namespace Sys2Proof.Config

/-! ## Opcode byte values `OPC_<MNEMONIC>` (30_encoding.md R85)

UNVERIFIED, unsafe: the spec takes these 21 default values from general knowledge (decision D2; log 1). -/

def opcHlt  : Byte := 0x01
def opcLdi  : Byte := 0x82
def opcPrn  : Byte := 0x47
def opcSt   : Byte := 0x84
def opcPush : Byte := 0x45
def opcPop  : Byte := 0x46
def opcCall : Byte := 0x50
def opcRet  : Byte := 0x11
def opcJmp  : Byte := 0x54
def opcJeq  : Byte := 0x55
def opcJne  : Byte := 0x56
def opcAdd  : Byte := 0xA0
def opcMul  : Byte := 0xA2
def opcAnd  : Byte := 0xA8
def opcOr   : Byte := 0xAA
def opcXor  : Byte := 0xAB
def opcShl  : Byte := 0xAC
def opcShr  : Byte := 0xAD
def opcMod  : Byte := 0xA4
def opcNot  : Byte := 0x69
def opcCmp  : Byte := 0xA7

/-! ## Registers and reset values (00_scope.md R6, 10_state.md R32) -/

/-- `SP`: the index of the stack-pointer register (10_state.md R22). -/
def sp : RegIdx := 7

/-- `SP_INIT`: the value of `x[7]` after reset (10_state.md R22, R32). -/
def spInit : Byte := 0xF4

/-- `REG_RESET`: the value of `x[0]` to `x[6]` after reset. UNVERIFIED, unsafe: the spec's decision D10 (log 2). -/
def regReset : Byte := 0x00

/-- `MEM_RESET`: the value of every memory cell after reset, and so of every cell memory does not list.
UNVERIFIED, unsafe: the spec's decision D10 (log 3). -/
def memReset : Byte := 0x00

/-- `PC_RESET`: the program counter after reset (10_state.md R32). -/
def pcReset : PcWord := 0

/-- `FL_RESET`: the flags byte after reset (10_state.md R32). -/
def flReset : Byte := 0x00

end Sys2Proof.Config
end

