-- ==== Sys2Proof/Machine/State.lean ====
section
/-! DEFINITION. The machine's state (spec/10_state.md R20 to R32), its fault record, and the reasons a step can stop. -/

namespace Sys2Proof.Machine

/-- Why the machine halted (10_state.md R28, 60_exceptions.md R200). -/
inductive Cause where
  /-- `NONE`: no fault has occurred; also the state after `HLT`. -/
  | none
  /-- The fetched opcode byte is not in the opcode table (R201). -/
  | invalidInstruction
  /-- `MOD` with a divisor register that holds 0 (R202). -/
  | divisionByZero
  /-- A computed memory address outside 0..255, or a register index above 7 (R203). -/
  | addressOutOfBounds
  /-- Reserved for the source's taxonomy; nothing raises it (R204). -/
  | unsupportedOperation
  deriving DecidableEq, Repr

/-- The space a fault's detail speaks of: a memory address or a register index (60_exceptions.md R200). -/
inductive Space where
  | mem
  | reg
  deriving DecidableEq, Repr

/-- The detail of a fault: the pair `(space, value)` (60_exceptions.md R200), the value an integer from -1 to 256
(10_state.md R28). -/
structure Info where
  space : Space
  value : Int
  deriving DecidableEq, Repr

/-- A fault to be taken, with what it records (60_exceptions.md R200, R205). -/
structure Trap where
  cause : Cause
  info : Info
  deriving DecidableEq, Repr

/-- Memory: the cells that differ from the reset value, as (address, byte) pairs with strictly rising addresses; a cell
not listed reads as `Config.memReset` (10_state.md R30, R32; log 3). -/
abbrev Memory := List Host.Cell

/-- The canonical form of memory: strictly rising addresses, each in 0..255, and no entry that an unlisted address reads as. -/
abbrev Memory.wf (m : Memory) : Prop :=
  List.Pairwise (fun c d : Host.Cell => c.1 < d.1) m ∧ ∀ c ∈ m, c.1 ≤ 255 ∧ c.2 ≠ Config.memReset

/-- Everything the spec gives the machine (10_state.md: "Nothing else is state (rule R31)"). -/
structure State where
  /-- The general registers `x[0]` to `x[7]` (R20); `x[7]` is the stack pointer (R22). -/
  regs : Vector Byte 8
  /-- The program counter: the address of the opcode of the instruction being executed; holds 0..256 (R24). -/
  pc : PcWord
  /-- The flags byte: E bit 0, G bit 1, L bit 2 (R26). -/
  fl : Byte
  /-- RUNNING or HALTED (R27). -/
  running : Bool
  /-- The fault that halted the machine (R28). -/
  cause : Cause
  /-- The detail of that fault (R28). -/
  info : Info
  /-- The 256 memory cells (R30). -/
  mem : Memory
  /-- The values `PRN` has emitted since reset, oldest first (R29). -/
  out : List Byte
  deriving DecidableEq, Repr

/-- The one reason a step stops. -/
inductive Fault where
  /-- Raised by `step` alone, in a state whose running flag is false: HALTED is terminal and has no step (40_dispatch.md
  R116). A stuck state, no fault of the spec's list: those are next states (60_exceptions.md R205). Safe (log 9). -/
  | halted
  deriving DecidableEq, Repr

/-- Reasons for a refusal. -/
inductive Refusal where
  /-- Raised by an arm of `exec` whose instruction has no meaning yet; no arm of this model does so. Safe. -/
  | notModelled (mnemonic : String)
  deriving DecidableEq, Repr

/-- What one step or one instruction answers. -/
abbrev Answer := Host.Outcome State Fault Refusal

/-- The machine right after reset (10_state.md R32, 70_reset_and_hazards.md R230), before any program is loaded. The values
of `x[0]` to `x[6]`, memory, cause, info and out are the spec's decision D10 (log 2, log 3). -/
def State.reset : State where
  regs := (Vector.replicate 8 Config.regReset).set 7 Config.spInit
  pc := Config.pcReset
  fl := Config.flReset
  running := true
  cause := .none
  info := ⟨.mem, 0⟩
  mem := []
  out := []

end Sys2Proof.Machine
end

