-- ==== Sys2Proof/Machine/Ops.lean ====
section
/-! DEFINITION. The named operations over registers, memory, flags, program counter and output, the stack primitives, and
taking a fault: the primitives of spec/00_scope.md R9, the only ways an instruction touches state. -/

namespace Sys2Proof.Machine

/-! ## Taking a fault (60_exceptions.md R200, R205) -/

/-- `InvalidInstruction(op)` records `(MEM, op)` (R200). -/
def invalidInstruction (op : Byte) : Trap := ⟨.invalidInstruction, ⟨.mem, op.toNat⟩⟩

/-- `DivisionByZero(0)` records `(MEM, 0)` (R200). -/
def divisionByZero : Trap := ⟨.divisionByZero, ⟨.mem, 0⟩⟩

/-- `AddressOutOfBounds(space, a)` records the offending address or register byte (R200). -/
def addressOutOfBounds (space : Space) (a : Int) : Trap := ⟨.addressOutOfBounds, ⟨space, a⟩⟩

/-- `raise E(info)`, the machine's only trap mechanism (R205): the machine halts, cause and info are recorded, everything
else keeps the value it had at the start of the cycle, the program counter too (decision D8). There is no return from
a fault (R207). -/
def raise (t : Trap) (s : State) : State :=
  { s with running := false, cause := t.cause, info := t.info }

/-- What a cycle that began in `s` answers: the state its instruction leaves or, where a check raised a fault, `s` with
that fault taken. Faults are precise (R205): whatever an abandoned cycle had computed is dropped. -/
def conclude (s : State) : Except Trap State → Answer
  | .ok t => .next t
  | .error e => .next (raise e s)

/-- A check of a rule, placed before the rule's writes (00_scope.md R10): if `bad` holds, the fault `t` is raised. -/
def raiseIf (bad : Bool) (t : Trap) : Except Trap Unit := if bad then .error t else .ok ()

/-! ## Registers (10_state.md R20, R21) -/

/-- `x[i]`: no register is hardwired, every index reads the same way (R20). -/
def readReg (i : RegIdx) (s : State) : Byte := s.regs[i.val]

/-- `x[i] <- v` for an integer of any size: stores `v mod 256` (R21). -/
def writeReg (i : RegIdx) (v : Nat) (s : State) : State :=
  { s with regs := s.regs.set i.val (BitVec.ofNat 8 v) }

/-! ## Program counter (10_state.md R24) and running flag (R27) -/

/-- `pc <- pc + n`: sequential advance, without wraparound in every state where the instruction's bytes lie in memory
(40_dispatch.md R115; log 10). -/
def advance (n : Nat) (s : State) : State := { s with pc := BitVec.ofNat 9 (s.pc.toNat + n) }

/-- `pc <- t` for an 8-bit target, always an address 0..255 (10_state.md R24). -/
def jump (t : Byte) (s : State) : State := { s with pc := BitVec.ofNat 9 t.toNat }

/-- `running <- false`, the program counter not written (40_dispatch.md R118). -/
def halt (s : State) : State := { s with running := false }

/-! ## Flags and output -/

/-- `FL <- f`: the whole flags byte (10_state.md R26). -/
def setFlags (f : Byte) (s : State) : State := { s with fl := f }

/-- `Emit(v)`: append one value to the output stream (10_state.md R29). -/
def emit (v : Byte) (s : State) : State := { s with out := s.out ++ [v] }

/-! ## Memory (20_memory.md R50, R51) -/

/-- The byte of the cell at an address; a cell not listed holds `Config.memReset` (10_state.md R32). -/
def Memory.read : Memory → Nat → Byte
  | [], _ => Config.memReset
  | (b, v) :: m, a => if a = b then v else Memory.read m a

/-- Put one entry before a memory whose addresses are all higher, unless the byte is what an unlisted cell holds. -/
def Memory.put (a : Nat) (v : Byte) (m : Memory) : Memory :=
  if v = Config.memReset then m else (a, v) :: m

/-- Store a byte in the cell at an address, keeping the canonical form. -/
def Memory.write : Memory → Nat → Byte → Memory
  | [], a, v => Memory.put a v []
  | (b, w) :: m, a, v =>
    if a < b then Memory.put a v ((b, w) :: m)
    else if a = b then Memory.put a v m
    else (b, w) :: Memory.write m a v

/-- Store bytes in the cells from an address up, as many as lie within 0..255. -/
def Memory.writeBytes : Memory → Nat → List Byte → Memory
  | m, _, [] => m
  | m, a, v :: vs => if a ≤ 255 then Memory.writeBytes (Memory.write m a v) (a + 1) vs else m

/-- The state with one byte stored in the cell at an address. -/
def storeByte (a : Nat) (v : Byte) (s : State) : State := { s with mem := s.mem.write a v }

/-- `MemRead(a, 1)`: the byte at an address, which is an unbounded integer tested before any truncation (20_memory.md R51). -/
def memRead (a : Int) (s : State) : Except Trap Byte :=
  if a < 0 ∨ 255 < a then .error (addressOutOfBounds .mem a) else .ok (s.mem.read a.toNat)

/-- `MemWrite(a, 1, v)` (20_memory.md R51). -/
def memWrite (a : Int) (v : Byte) (s : State) : Except Trap State :=
  if a < 0 ∨ 255 < a then .error (addressOutOfBounds .mem a)
  else .ok (storeByte a.toNat v s)

/-! ## The stack primitives (42_stack.md R140, R141) -/

/-- `Push(v)`: decrement the stack pointer, then store at the new address. The decrement is an address computation, checked
as an address: with `x[7] = 0` it faults and does not wrap (R140, decision D6). -/
def push (v : Byte) (s : State) : Except Trap State := do
  let a : Int := (readReg Config.sp s).toNat - 1
  raiseIf (a < 0) (addressOutOfBounds .mem a)
  memWrite a v (writeReg Config.sp a.toNat s)

/-- `Pop()`: read at the stack pointer, then increment it; the popped cell keeps its value. With `x[7] = 255` it faults and
does not wrap (R141, decision D6). -/
def pop (s : State) : Except Trap (Byte × State) := do
  let a : Int := (readReg Config.sp s).toNat
  raiseIf (255 < a + 1) (addressOutOfBounds .mem (a + 1))
  let v ← memRead a s
  return (v, writeReg Config.sp (a + 1).toNat s)

end Sys2Proof.Machine
end

