-- ==== Sys2Proof/Machine/Flags.lean ====
section
/-! DEFINITION. The flags byte (spec/10_state.md R26): its three bits, and the one computation that writes it, that of `CMP`
(44_alu.md R180). No other instruction computes a flag (44_alu.md R170). -/

namespace Sys2Proof.Machine

/-- `FL.E = FL[0]`: set by an equal compare; the only flag an instruction reads (10_state.md R26). -/
def flagE (s : State) : Bool := s.fl.getLsbD 0

/-- `FL.G = FL[1]`: set by a greater-than compare; visible to the host only (10_state.md R26). -/
def flagG (s : State) : Bool := s.fl.getLsbD 1

/-- `FL.L = FL[2]`: set by a less-than compare; visible to the host only (10_state.md R26). -/
def flagL (s : State) : Bool := s.fl.getLsbD 2

/-- The whole flags byte a compare writes, from the unsigned values (44_alu.md R180, decision D16). -/
def compareFlags (a b : Byte) : Byte :=
  if a.toNat = b.toNat then 0x01 else if b.toNat < a.toNat then 0x02 else 0x04

end Sys2Proof.Machine
end

