-- ==== Sys2Proof/Machine/AluBlock.lean ====
section
/-! DEFINITION. The arithmetic/logic unit (spec/44_alu.md R170, R181, R183). Each operation is computed exactly over the
integers; `writeReg` cuts the result to 8 bits (10_state.md R21). -/

namespace Sys2Proof.Machine

/-- `x[ra] + x[rb]` (R171). -/
def addExact (a b : Byte) : Nat := a.toNat + b.toNat

/-- `x[ra] * x[rb]`, up to 65025 (R172). -/
def mulExact (a b : Byte) : Nat := a.toNat * b.toNat

/-- Bitwise and (R173). -/
def andExact (a b : Byte) : Nat := (a &&& b).toNat

/-- Bitwise inclusive or (R174). -/
def orExact (a b : Byte) : Nat := (a ||| b).toNat

/-- Bitwise exclusive or (R175). -/
def xorExact (a b : Byte) : Nat := (a ^^^ b).toNat

/-- `x[ra] << n` with the whole of `x[rb]` as count, not masked (R176). -/
def shlExact (a n : Byte) : Nat := a.toNat * 2 ^ n.toNat

/-- `x[ra] div 2^n` with the whole of `x[rb]` as count (R177, decision D15). -/
def shrExact (a n : Byte) : Nat := a.toNat / 2 ^ n.toNat

/-- The unsigned remainder, for a divisor that is not 0 (R178, decision D16). The spec gives no remainder for a zero divisor
(00_scope.md R8, R183); this function then gives `a`, DESIGN CHOICE, safe: nothing uses it, `MOD` faults first (log 15). -/
def modExact (a b : Byte) : Nat := a.toNat % b.toNat

/-- `255 - x[ra]`: every one of the 8 bits inverted (R179, decision D17). -/
def notExact (a : Byte) : Nat := 255 - a.toNat

/-- The ten operations the decoder can select (R182, R183). -/
inductive AluOp where
  | add | mul | and | or | xor | shl | shr | mod | not | cmp
  deriving DecidableEq, Repr

/-- The outputs of the unit (R183): the result for `x[ra]`, the flags for `CMP`, and the zero-divisor signal. -/
structure AluOut where
  result : Byte
  flags : Byte
  div0 : Bool
  deriving DecidableEq, Repr

/-- The exact integer result; `CMP` has none and gives 0, which nothing uses (R183; log 15). -/
def aluExact (a b : Byte) : AluOp → Nat
  | .add => addExact a b
  | .mul => mulExact a b
  | .and => andExact a b
  | .or => orExact a b
  | .xor => xorExact a b
  | .shl => shlExact a b
  | .shr => shrExact a b
  | .mod => modExact a b
  | .not => notExact a
  | .cmp => 0

/-- The second input as the unit uses it: `NOT` ignores `b` (R183), and the first input stands in its place. DESIGN CHOICE,
safe: it shows only in the flags output for `NOT`, which nothing uses (log 15). -/
def aluSecond (op : AluOp) (a b : Byte) : Byte := if op = .not then a else b

/-- The unit as a combinational block (R183): the same inputs always give the same outputs. DESIGN CHOICE, safe (log 15), where
R183 gives an output no use: the result for `MOD` with a zero divisor is `a`, and the flags for an operation other than `CMP`
are those of the comparison all the same, so one of the three values R183 allows. -/
def alu (op : AluOp) (a b : Byte) : AluOut where
  result := BitVec.ofNat 8 (aluExact a b op)
  flags := compareFlags a (aluSecond op a b)
  div0 := op == .mod && b == 0

end Sys2Proof.Machine
end

