-- ==== Sys2Proof/Machine/Operands.lean ====
section
/-! DEFINITION. The operand forms (spec/30_encoding.md R83, R84; 40_dispatch.md R114). A register operand goes through
`regIdx`; the immediate of `LDI` is its byte, used as is. There are no other forms (R84). -/

namespace Sys2Proof.Machine

/-- `RegIdx(b)`: the whole operand byte is the index; above 7 it raises `AddressOutOfBounds(REG, b)` (R83, decision D5). -/
def regIdx (b : Byte) : Except Trap RegIdx :=
  if h : b.toNat < 8 then .ok ⟨b.toNat, h⟩ else .error (addressOutOfBounds .reg b.toNat)

/-- The immediate operand: an unsigned value 0..255 with no extension, scaling or shift (R84). -/
def immediate (b : Byte) : Nat := b.toNat

/-- The two register indices of format RR, the first operand byte checked first (40_dispatch.md R114). -/
def regPair (b1 b2 : Byte) : Except Trap (RegIdx × RegIdx) := do
  let ra ← regIdx b1
  let rb ← regIdx b2
  return (ra, rb)

end Sys2Proof.Machine
end

