-- ==== Sys2Proof/Machine/Alu.lean ====
section
/-! DEFINITION. The ALU instructions (spec/44_alu.md R171 to R180). Both operands are read before anything is written, so
the two register operands may be the same (R170). -/

namespace Sys2Proof.Machine

/-- The two-operand form of R170: `x[ra] <- f(x[ra], x[rb]) mod 256; pc <- pc + 3`. -/
def aluRR (f : Byte → Byte → Nat) (ra rb : Byte) (s : State) : Except Trap State := do
  let (ra, rb) ← regPair ra rb
  return advance 3 (writeReg ra (f (readReg ra s) (readReg rb s)) s)

/-- `ADD ra, rb` (R171). -/
def execAdd (ra rb : Byte) (s : State) : Answer := conclude s (aluRR addExact ra rb s)

/-- `MUL ra, rb` (R172). -/
def execMul (ra rb : Byte) (s : State) : Answer := conclude s (aluRR mulExact ra rb s)

/-- `AND ra, rb` (R173). -/
def execAnd (ra rb : Byte) (s : State) : Answer := conclude s (aluRR andExact ra rb s)

/-- `OR ra, rb` (R174). -/
def execOr (ra rb : Byte) (s : State) : Answer := conclude s (aluRR orExact ra rb s)

/-- `XOR ra, rb` (R175). -/
def execXor (ra rb : Byte) (s : State) : Answer := conclude s (aluRR xorExact ra rb s)

/-- `SHL ra, rb` (R176). -/
def execShl (ra rb : Byte) (s : State) : Answer := conclude s (aluRR shlExact ra rb s)

/-- `SHR ra, rb` (R177). -/
def execShr (ra rb : Byte) (s : State) : Answer := conclude s (aluRR shrExact ra rb s)

/-- `MOD ra, rb` (R178): a zero divisor raises `DivisionByZero` and nothing is written. -/
def execMod (ra rb : Byte) (s : State) : Answer :=
  conclude s do
    let (_, d) ← regPair ra rb
    raiseIf (readReg d s = 0) divisionByZero
    aluRR modExact ra rb s

/-- `NOT ra` (R179): the only 2-byte ALU instruction. -/
def execNot (ra : Byte) (s : State) : Answer :=
  conclude s do
    let ra ← regIdx ra
    return advance 2 (writeReg ra (notExact (readReg ra s)) s)

/-- `CMP ra, rb` (R180): overwrites the whole flags byte; neither register is written. -/
def execCmp (ra rb : Byte) (s : State) : Answer :=
  conclude s do
    let (ra, rb) ← regPair ra rb
    return advance 3 (setFlags (compareFlags (readReg ra s) (readReg rb s)) s)

end Sys2Proof.Machine
end

