-- ==== Sys2Proof/Machine/Data.lean ====
section
/-! DEFINITION. Data movement and output: `LDI`, `PRN`, `ST` (spec/41_data.md R130 to R132). -/

namespace Sys2Proof.Machine

/-- `LDI r, imm` (R130). -/
def execLdi (r imm : Byte) (s : State) : Answer :=
  conclude s do
    let r ← regIdx r
    return advance 3 (writeReg r (immediate imm) s)

/-- `PRN r` (R131): the only instruction with an effect outside the machine. -/
def execPrn (r : Byte) (s : State) : Answer :=
  conclude s do
    let r ← regIdx r
    return advance 2 (emit (readReg r s) s)

/-- `ST ra, rb` (R132): register-indirect, `Mem[x[ra]] <- x[rb]`. -/
def execSt (ra rb : Byte) (s : State) : Answer :=
  conclude s do
    let (ra, rb) ← regPair ra rb
    let t ← memWrite (readReg ra s).toNat (readReg rb s) s
    return advance 3 t

end Sys2Proof.Machine
end

