-- ==== Sys2Proof/Machine/Halt.lean ====
section
/-! DEFINITION. `HLT` (spec/40_dispatch.md R118). -/

namespace Sys2Proof.Machine

/-- `HLT`: clear the running flag; the program counter stays at the `HLT` (R118, decision D9), cause stays `NONE`. -/
def execHlt (s : State) : Answer := conclude s (.ok (halt s))

end Sys2Proof.Machine
end

