-- ==== Sys2Proof/Machine/Jumps.lean ====
section
/-! DEFINITION. Jumps: `JMP`, `JEQ`, `JNE` (spec/43_jumps.md R160 to R162). Every target is absolute and comes from a
register (R163). The register index is checked whether or not the jump is taken (30_encoding.md R83, decision D14). -/

namespace Sys2Proof.Machine

/-- Jump to the address in a register if the condition holds, else fall through by exactly 2 bytes. -/
def jumpIf (taken : Bool) (r : Byte) (s : State) : Except Trap State := do
  let r ← regIdx r
  return if taken then jump (readReg r s) s else advance 2 s

/-- `JMP r` (R160): unconditional. -/
def execJmp (r : Byte) (s : State) : Answer := conclude s (jumpIf true r s)

/-- `JEQ r` (R161): taken when `FL.E = 1`. -/
def execJeq (r : Byte) (s : State) : Answer := conclude s (jumpIf (flagE s) r s)

/-- `JNE r` (R162): taken when `FL.E = 0`. -/
def execJne (r : Byte) (s : State) : Answer := conclude s (jumpIf (!flagE s) r s)

end Sys2Proof.Machine
end

