-- ==== Sys2Proof/Machine/Stack.lean ====
section
/-! DEFINITION. Stack discipline: `PUSH`, `POP`, `CALL`, `RET` (spec/42_stack.md R142 to R145). The order of events when
register 7 is the explicit operand is the spec's decision D13 (log 5). -/

namespace Sys2Proof.Machine

/-- `PUSH r` (R142): the register is read before the stack pointer moves. -/
def execPush (r : Byte) (s : State) : Answer :=
  conclude s do
    let r ← regIdx r
    let t ← push (readReg r s) s
    return advance 2 t

/-- `POP r` (R143): the register is written after the stack pointer has moved. -/
def execPop (r : Byte) (s : State) : Answer :=
  conclude s do
    let r ← regIdx r
    let (v, t) ← pop s
    return advance 2 (writeReg r v.toNat t)

/-- `CALL r` (R144): the return address is checked, then pushed; the target register is read after the push. -/
def execCall (r : Byte) (s : State) : Answer :=
  conclude s do
    let r ← regIdx r
    let ret := s.pc.toNat + 2
    raiseIf (255 < ret) (addressOutOfBounds .mem 256)
    let t ← push (BitVec.ofNat 8 ret) s
    return jump (readReg r t) t

/-- `RET` (R145): pop into the program counter. -/
def execRet (s : State) : Answer :=
  conclude s do
    let (v, t) ← pop s
    return jump v t

end Sys2Proof.Machine
end

