-- ==== Sys2Proof/Syntax.lean ====
section
/-! DEFINITION. The instructions: the rows of spec/opcode_table.json (30_encoding.md R81, R85).

A register operand is kept as the whole operand byte, because the spec uses it whole: 0..7 is an index, 8..255 raises
AddressOutOfBounds(REG, byte) in the cycle that executes it (30_encoding.md R83). DESIGN CHOICE, safe (log 8). -/

namespace Sys2Proof

/-- One instruction, one constructor per row of the opcode table, in the table's order, with its operand bytes in the
order of their addresses (30_encoding.md R81). -/
inductive Instr where
  | hlt
  | ldi (r imm : Byte)
  | prn (r : Byte)
  | st (ra rb : Byte)
  | push (r : Byte)
  | pop (r : Byte)
  | call (r : Byte)
  | ret
  | jmp (r : Byte)
  | jeq (r : Byte)
  | jne (r : Byte)
  | add (ra rb : Byte)
  | mul (ra rb : Byte)
  | and (ra rb : Byte)
  | or (ra rb : Byte)
  | xor (ra rb : Byte)
  | shl (ra rb : Byte)
  | shr (ra rb : Byte)
  | mod (ra rb : Byte)
  | not (ra : Byte)
  | cmp (ra rb : Byte)
  deriving DecidableEq, Repr

/-- The mnemonics of the opcode table: what the opcode byte alone selects (30_encoding.md R80, R85). -/
inductive Op where
  | hlt | ldi | prn | st | push | pop | call | ret | jmp | jeq | jne
  | add | mul | and | or | xor | shl | shr | mod | not | cmp
  deriving DecidableEq, Repr

/-- The four formats (30_encoding.md R81): no operand, one register, two registers, register and immediate. -/
inductive Format where
  | n | r | rr | ri
  deriving DecidableEq, Repr

/-- The byte length of a format (30_encoding.md R81). -/
def Format.len : Format → Nat
  | .n => 1
  | .r => 2
  | .rr => 3
  | .ri => 3

/-- The operation of an instruction. -/
def Instr.op : Instr → Op
  | .hlt => .hlt
  | .ldi _ _ => .ldi
  | .prn _ => .prn
  | .st _ _ => .st
  | .push _ => .push
  | .pop _ => .pop
  | .call _ => .call
  | .ret => .ret
  | .jmp _ => .jmp
  | .jeq _ => .jeq
  | .jne _ => .jne
  | .add _ _ => .add
  | .mul _ _ => .mul
  | .and _ _ => .and
  | .or _ _ => .or
  | .xor _ _ => .xor
  | .shl _ _ => .shl
  | .shr _ _ => .shr
  | .mod _ _ => .mod
  | .not _ => .not
  | .cmp _ _ => .cmp

/-- The operand bytes of an instruction, lowest address first (30_encoding.md R80, R81). -/
def Instr.operands : Instr → List Byte
  | .hlt => []
  | .ldi r imm => [r, imm]
  | .prn r => [r]
  | .st ra rb => [ra, rb]
  | .push r => [r]
  | .pop r => [r]
  | .call r => [r]
  | .ret => []
  | .jmp r => [r]
  | .jeq r => [r]
  | .jne r => [r]
  | .add ra rb => [ra, rb]
  | .mul ra rb => [ra, rb]
  | .and ra rb => [ra, rb]
  | .or ra rb => [ra, rb]
  | .xor ra rb => [ra, rb]
  | .shl ra rb => [ra, rb]
  | .shr ra rb => [ra, rb]
  | .mod ra rb => [ra, rb]
  | .not ra => [ra]
  | .cmp ra rb => [ra, rb]

/-- The operand bytes the format makes register indices, in operand order: all but the immediate of `LDI`
(30_encoding.md R83, R84; 40_dispatch.md R114). -/
def Instr.regBytes : Instr → List Byte
  | .hlt => []
  | .ldi r _ => [r]
  | .prn r => [r]
  | .st ra rb => [ra, rb]
  | .push r => [r]
  | .pop r => [r]
  | .call r => [r]
  | .ret => []
  | .jmp r => [r]
  | .jeq r => [r]
  | .jne r => [r]
  | .add ra rb => [ra, rb]
  | .mul ra rb => [ra, rb]
  | .and ra rb => [ra, rb]
  | .or ra rb => [ra, rb]
  | .xor ra rb => [ra, rb]
  | .shl ra rb => [ra, rb]
  | .shr ra rb => [ra, rb]
  | .mod ra rb => [ra, rb]
  | .not ra => [ra]
  | .cmp ra rb => [ra, rb]

end Sys2Proof
end

