-- ==== Sys2Proof/WellFormed.lean ====
section
/-! DEFINITION. Well-formed instructions: every register operand byte is an index of the register file (30_encoding.md R83).

An instruction that is not well formed still has a meaning: it takes the fault AddressOutOfBounds(REG, byte). -/

namespace Sys2Proof

/-- A register operand byte names a register: 0..7 (30_encoding.md R83). -/
def regByteOk (b : Byte) : Bool := decide (b.toNat ≤ 7)

/-- Every register operand byte of the instruction names a register. The immediate of `LDI` is not checked
(40_dispatch.md R114). -/
def Instr.wellFormed (i : Instr) : Bool := i.regBytes.all regByteOk

/-- The first register operand byte, in operand order, that names no register: the one the machine reports
(40_dispatch.md R114). -/
def Instr.badRegByte (i : Instr) : Option Byte := i.regBytes.find? (fun b => !regByteOk b)

end Sys2Proof
end

