-- ==== Sys2Proof/Decode.lean ====
section
/-! DEFINITION. The instruction decoder (spec/30_encoding.md, 40_dispatch.md R112, R113) and the encoder. -/

namespace Sys2Proof

/-! ## The opcode table (30_encoding.md R85) -/

/-- The opcode byte of an operation: the second column of the table of R85. -/
def Op.byte : Op → Byte
  | .hlt => Config.opcHlt
  | .ldi => Config.opcLdi
  | .prn => Config.opcPrn
  | .st => Config.opcSt
  | .push => Config.opcPush
  | .pop => Config.opcPop
  | .call => Config.opcCall
  | .ret => Config.opcRet
  | .jmp => Config.opcJmp
  | .jeq => Config.opcJeq
  | .jne => Config.opcJne
  | .add => Config.opcAdd
  | .mul => Config.opcMul
  | .and => Config.opcAnd
  | .or => Config.opcOr
  | .xor => Config.opcXor
  | .shl => Config.opcShl
  | .shr => Config.opcShr
  | .mod => Config.opcMod
  | .not => Config.opcNot
  | .cmp => Config.opcCmp

/-- The format of an operation: the fourth column of the table of R85. -/
def Op.format : Op → Format
  | .hlt => .n
  | .ldi => .ri
  | .prn => .r
  | .st => .rr
  | .push => .r
  | .pop => .r
  | .call => .r
  | .ret => .n
  | .jmp => .r
  | .jeq => .r
  | .jne => .r
  | .add => .rr
  | .mul => .rr
  | .and => .rr
  | .or => .rr
  | .xor => .rr
  | .shl => .rr
  | .shr => .rr
  | .mod => .rr
  | .not => .r
  | .cmp => .rr

/-- The byte length of an operation, a property of its opcode alone (30_encoding.md R82). -/
def Op.len (o : Op) : Nat := o.format.len

/-- The rows of the table of R85, in its order. -/
def opcodeRows : List Op :=
  [.hlt, .ldi, .prn, .st, .push, .pop, .call, .ret, .jmp, .jeq, .jne] ++
  [.add, .mul, .and, .or, .xor, .shl, .shr, .mod, .not, .cmp]

/-- Exact match of the whole opcode byte against the rows (R85, mask 0xFF); `none` is an invalid opcode (R87). -/
def lookupOp (op : Byte) : Option Op := opcodeRows.find? (fun o => o.byte == op)

/-! ## Decoding -/

/-- Why a sequence of bytes is no instruction. -/
inductive DecodeError where
  /-- The opcode byte is not in the opcode table (30_encoding.md R87). -/
  | invalidOpcode (op : Byte)
  /-- Byte number `n` of the instruction (0 the opcode, 1 and 2 the operands) is not there (40_dispatch.md R111, R113). -/
  | missingByte (n : Nat)
  deriving DecidableEq, Repr

/-- The instruction an operation makes with its operand bytes; a byte its format does not have is not looked at. -/
def Op.build (b1 b2 : Byte) : Op → Instr
  | .hlt => .hlt
  | .ldi => .ldi b1 b2
  | .prn => .prn b1
  | .st => .st b1 b2
  | .push => .push b1
  | .pop => .pop b1
  | .call => .call b1
  | .ret => .ret
  | .jmp => .jmp b1
  | .jeq => .jeq b1
  | .jne => .jne b1
  | .add => .add b1 b2
  | .mul => .mul b1 b2
  | .and => .and b1 b2
  | .or => .or b1 b2
  | .xor => .xor b1 b2
  | .shl => .shl b1 b2
  | .shr => .shr b1 b2
  | .mod => .mod b1 b2
  | .not => .not b1
  | .cmp => .cmp b1 b2

/-- Collect the operand bytes the format asks for (40_dispatch.md R113): first `b1`, then `b2`. -/
def decodeOperands (o : Op) (rest : List Byte) : Except DecodeError (Instr × List Byte) :=
  match o.format, rest with
  | .n, rest => .ok (o.build 0 0, rest)
  | .r, b1 :: rest => .ok (o.build b1 0, rest)
  | .rr, b1 :: b2 :: rest => .ok (o.build b1 b2, rest)
  | .ri, b1 :: b2 :: rest => .ok (o.build b1 b2, rest)
  | .r, [] => .error (.missingByte 1)
  | .rr, [] => .error (.missingByte 1)
  | .ri, [] => .error (.missingByte 1)
  | .rr, [_] => .error (.missingByte 2)
  | .ri, [_] => .error (.missingByte 2)

/-- Read one instruction from the front of a sequence of bytes: the instruction and the bytes after it, or why there is
none. The opcode is judged before any operand byte is looked for (40_dispatch.md R110, R112). -/
def decode : List Byte → Except DecodeError (Instr × List Byte)
  | [] => .error (.missingByte 0)
  | op :: rest =>
    match lookupOp op with
    | none => .error (.invalidOpcode op)
    | some o => decodeOperands o rest

/-- The bytes of an instruction, lowest address first (30_encoding.md R80, R81, R85). -/
def encode (i : Instr) : List Byte := i.op.byte :: i.operands

/-! ## Words numbered as spec/opcode_table.json numbers them -/

/-- The three bytes of a table word: bits 7..0 the first byte, bits 15..8 the second, bits 23..16 the third; bits from
`nbits` up are zero. Three bytes is the longest instruction. -/
def tableWordBytes (nbits w : Nat) : List Byte :=
  let v := w % 2 ^ nbits
  [BitVec.ofNat 8 v, BitVec.ofNat 8 (v / 256), BitVec.ofNat 8 (v / 65536)]

/-- The instruction the decoder reads from a table word. -/
def decodeTableWord (nbits w : Nat) : Option Instr :=
  match decode (tableWordBytes nbits w) with
  | .ok (i, _) => some i
  | .error _ => none

end Sys2Proof
end

