-- ==== Sys2Proof/Machine/Fetch.lean ====
section
/-! DEFINITION. Fetch (spec/40_dispatch.md R111 to R113): from memory itself, afresh every cycle (20_memory.md R63). -/

namespace Sys2Proof.Machine

/-- The bytes of memory from an address up, at most `n` of them and none beyond address 255. -/
def bytesFrom (m : Memory) (a : Nat) : Nat → List Byte
  | 0 => []
  | n + 1 => if a ≤ 255 then m.read a :: bytesFrom m (a + 1) n else []

/-- The bytes at the program counter that one instruction can use. Reading has no side effect (20_memory.md R55), so bytes
a shorter instruction does not have are simply not looked at. -/
def fetchWindow (s : State) : List Byte := bytesFrom s.mem s.pc.toNat 3

/-- The fault of bytes that are no instruction: an invalid opcode (R112), or an address beyond memory, the first offending
one (R111, R113, decisions D3, D4). -/
def fetchTrap (s : State) : DecodeError → Trap
  | .invalidOpcode op => invalidInstruction op
  | .missingByte n => addressOutOfBounds .mem (s.pc.toNat + n)

/-- Steps 1 to 3 of the cycle (R110): opcode fetch, decode, operand fetch. -/
def fetch (s : State) : Except Trap Instr :=
  match decode (fetchWindow s) with
  | .ok (i, _) => .ok i
  | .error e => .error (fetchTrap s e)

/-- `s` with bytes stored where its next instruction is fetched, as many as memory has room for from there. -/
def placeAtPc (bytes : List Byte) (s : State) : State :=
  { s with mem := s.mem.writeBytes s.pc.toNat bytes }

end Sys2Proof.Machine
end

