-- ==== Sys2Proof/Machine/Step.lean ====
section
/-! DEFINITION. One dispatch cycle (spec/40_dispatch.md R110), and where the host places an instruction to be fetched. -/

namespace Sys2Proof.Machine

/-- `Step()` (R110): no step exists in HALTED (R116); else fetch, decode, fetch operands, validate, execute. A fault of the
fetch is taken like any other (60_exceptions.md R205), so every running state has exactly one next state. -/
def step (s : State) : Host.Outcome State Fault Refusal :=
  if s.running then
    match fetch s with
    | .ok i => exec i s
    | .error t => conclude s (.error t)
  else .fault .halted

/-- `s` with a word of the opcode table, and zero bytes up to the longest instruction, stored at its program counter
(log 11, log 17). -/
def State.withFetchWord (s : State) (nbits w : Nat) : State :=
  placeAtPc (tableWordBytes nbits w) s

end Sys2Proof.Machine
end

