-- ==== Sys2Proof/Machine/Signals.lean ====
section
/-! DEFINITION. The decoder as a block (spec/30_encoding.md R90): the control signals it puts out for an opcode byte, and a
datapath that obeys them. The instruction rules govern; an obligation states that this second reading agrees with `exec`. -/

namespace Sys2Proof.Machine

/-! ## The signals and their table -/

/-- `rf_w`: the source of the register write. -/
inductive RegSource where
  | none | imm | mem | alu
  deriving DecidableEq, Repr

/-- `sp`: the stack-pointer update, `dec` before the access and `inc` after it. -/
inductive SpUpdate where
  | hold | dec | inc
  deriving DecidableEq, Repr

/-- `mem`: the data access and its address. -/
inductive MemAccess where
  | none | writeAtReg | writeAtNewSp | readAtOldSp
  deriving DecidableEq, Repr

/-- `wdata`: what a write stores. -/
inductive WriteData where
  | none | firstReg | secondReg | returnAddress
  deriving DecidableEq, Repr

/-- `pc_src`: the next program counter. -/
inductive PcSource where
  | hold | sequential | register | registerIfE | registerUnlessE | popped
  deriving DecidableEq, Repr

/-- The outputs of the decoder for one opcode byte; `len` is the length of the format (R82). -/
structure Signals where
  valid : Bool
  format : Format
  aluOp : Option AluOp
  rfW : RegSource
  sp : SpUpdate
  mem : MemAccess
  wdata : WriteData
  flW : Bool
  pcSrc : PcSource
  halt : Bool
  emit : Bool
  deriving DecidableEq, Repr

/-- The row most rows differ little from: no effect but sequential advance. -/
def plainSignals (f : Format) : Signals where
  valid := true
  format := f
  aluOp := .none
  rfW := .none
  sp := .hold
  mem := .none
  wdata := .none
  flW := false
  pcSrc := .sequential
  halt := false
  emit := false

/-- The row of an ALU instruction that writes its result to the first register. -/
def aluSignals (f : Format) (op : AluOp) : Signals :=
  { plainSignals f with aluOp := some op, rfW := .alu }

/-- The rows of the table of R90. -/
def opSignals : Op → Signals
  | .hlt => { plainSignals .n with pcSrc := .hold, halt := true }
  | .ldi => { plainSignals .ri with rfW := .imm }
  | .prn => { plainSignals .r with emit := true }
  | .st => { plainSignals .rr with mem := .writeAtReg, wdata := .secondReg }
  | .push => { plainSignals .r with sp := .dec, mem := .writeAtNewSp, wdata := .firstReg }
  | .pop => { plainSignals .r with rfW := .mem, sp := .inc, mem := .readAtOldSp }
  | .call => { plainSignals .r with
      sp := .dec, mem := .writeAtNewSp, wdata := .returnAddress, pcSrc := .register }
  | .ret => { plainSignals .n with sp := .inc, mem := .readAtOldSp, pcSrc := .popped }
  | .jmp => { plainSignals .r with pcSrc := .register }
  | .jeq => { plainSignals .r with pcSrc := .registerIfE }
  | .jne => { plainSignals .r with pcSrc := .registerUnlessE }
  | .add => aluSignals .rr .add
  | .mul => aluSignals .rr .mul
  | .and => aluSignals .rr .and
  | .or => aluSignals .rr .or
  | .xor => aluSignals .rr .xor
  | .shl => aluSignals .rr .shl
  | .shr => aluSignals .rr .shr
  | .mod => aluSignals .rr .mod
  | .not => aluSignals .r .not
  | .cmp => { plainSignals .rr with aluOp := some .cmp, flW := true }

/-- The decoder: opcode byte in, signals out; a byte outside the table is not valid and holds the program counter (R90). The
spec gives no format or length for such a byte (R82, R90); the format output is then N, length 1. DESIGN CHOICE, safe: with
`valid` off nothing uses it (log 15). -/
def signals (op : Byte) : Signals :=
  match lookupOp op with
  | some o => opSignals o
  | none => { plainSignals .n with valid := false, pcSrc := .hold }

/-! ## A datapath under the signals

Where a format has no first or second register the port carries register 0 and no signal uses it (log 15). -/

/-- The first register port: used by every format but N (R81). -/
def firstPort (g : Signals) (b1 : Byte) : Except Trap RegIdx :=
  if g.format = .n then .ok 0 else regIdx b1

/-- The second register port: used by format RR only (R81). -/
def secondPort (g : Signals) (b2 : Byte) : Except Trap RegIdx :=
  if g.format = .rr then regIdx b2 else .ok 0

/-- The ALU's outputs; all zero where no operation is selected. -/
def aluPort (g : Signals) (a b : Byte) : AluOut :=
  match g.aluOp with
  | some op => alu op a b
  | none => ⟨0, 0, false⟩

/-- The stack-pointer update. -/
def spStage (g : Signals) (s : State) : State :=
  match g.sp with
  | .hold => s
  | .dec => writeReg Config.sp ((readReg Config.sp s).toNat - 1) s
  | .inc => writeReg Config.sp ((readReg Config.sp s).toNat + 1) s

/-- The byte a write stores; 0 where nothing is written, which nothing uses (log 15). -/
def writeData (g : Signals) (r1 r2 : RegIdx) (s : State) : Byte :=
  match g.wdata with
  | .none => 0
  | .firstReg => readReg r1 s
  | .secondReg => readReg r2 s
  | .returnAddress => BitVec.ofNat 8 (s.pc.toNat + 2)

/-- The data write, `s` the state at the start of the cycle and `t` the state after the stack-pointer update. -/
def memStage (g : Signals) (r1 r2 : RegIdx) (s t : State) : State :=
  match g.mem with
  | .none => t
  | .writeAtReg => storeByte (readReg r1 s).toNat (writeData g r1 r2 s) t
  | .writeAtNewSp => storeByte (readReg Config.sp t).toNat (writeData g r1 r2 s) t
  | .readAtOldSp => t

/-- The byte the data read gives: the cell at the old stack pointer. -/
def poppedByte (s : State) : Byte := s.mem.read (readReg Config.sp s).toNat

/-- The register write. -/
def regStage (g : Signals) (r1 r2 : RegIdx) (imm : Byte) (s t : State) : State :=
  match g.rfW with
  | .none => t
  | .imm => writeReg r1 (immediate imm) t
  | .mem => writeReg r1 (poppedByte s).toNat t
  | .alu => writeReg r1 (aluPort g (readReg r1 s) (readReg r2 s)).result.toNat t

/-- The flags write. -/
def flagStage (g : Signals) (r1 r2 : RegIdx) (s t : State) : State :=
  if g.flW then setFlags (aluPort g (readReg r1 s) (readReg r2 s)).flags t else t

/-- The emission of a value and the clearing of the running flag. -/
def effectStage (g : Signals) (r1 : RegIdx) (s t : State) : State :=
  let t := if g.emit then emit (readReg r1 s) t else t
  if g.halt then halt t else t

/-- The next program counter; a register target is read after the stack-pointer update (R144). -/
def pcStage (g : Signals) (r1 : RegIdx) (s t : State) : State :=
  match g.pcSrc with
  | .hold => t
  | .sequential => advance g.format.len t
  | .register => jump (readReg r1 t) t
  | .registerIfE => if flagE s then jump (readReg r1 t) t else advance g.format.len t
  | .registerUnlessE => if flagE s then advance g.format.len t else jump (readReg r1 t) t
  | .popped => jump (poppedByte s) t

/-- The checks of the cycle after the register indices, in the order of 60_exceptions.md R206. -/
def checkStage (g : Signals) (r1 r2 : RegIdx) (s : State) : Except Trap Unit := do
  raiseIf (g.wdata = .returnAddress && 255 < s.pc.toNat + 2) (addressOutOfBounds .mem 256)
  raiseIf (g.sp = .dec && (readReg Config.sp s).toNat = 0) (addressOutOfBounds .mem (-1))
  raiseIf (g.sp = .inc && (readReg Config.sp s).toNat = 255) (addressOutOfBounds .mem 256)
  raiseIf (aluPort g (readReg r1 s) (readReg r2 s)).div0 divisionByZero

/-- One execution of the opcode byte `op` with operand bytes `b1`, `b2`, as its signals command it. -/
def datapath (op b1 b2 : Byte) (s : State) : Except Trap State := do
  let g := signals op
  raiseIf (!g.valid) (invalidInstruction op)
  let r1 ← firstPort g b1
  let r2 ← secondPort g b2
  checkStage g r1 r2 s
  let t := memStage g r1 r2 s (spStage g s)
  let t := flagStage g r1 r2 s (regStage g r1 r2 b2 s t)
  return pcStage g r1 s (effectStage g r1 s t)

end Sys2Proof.Machine
end

