-- ==== Sys2Proof/Machine/Bus.lean ====
section
/-! DEFINITION. The accesses one cycle puts on the memory port, in order (spec/20_memory.md R55, R60; 10_state.md R33). They
are a function of the state, not a part of it (log 16). -/

namespace Sys2Proof.Machine

/-- One access on the memory port: always one byte (20_memory.md R55). -/
inductive Access where
  | read (a : Nat)
  | write (a : Nat) (v : Byte)
  deriving DecidableEq, Repr

/-- The reads of the instruction's own bytes, ascending from the program counter (R60). -/
def instrReads (pc : Nat) (n : Nat) : List Access := (List.range n).map (fun k => .read (pc + k))

/-- The one data access of an instruction whose checks pass, if it has one (R56, R60). -/
def dataAccess (s : State) : Instr → List Access
  | .st ra rb =>
    match regPair ra rb with
    | .ok (ra, rb) => [.write (readReg ra s).toNat (readReg rb s)]
    | .error _ => []
  | .push r =>
    match regIdx r with
    | .ok r => if (readReg Config.sp s).toNat = 0 then []
        else [.write ((readReg Config.sp s).toNat - 1) (readReg r s)]
    | .error _ => []
  | .call r =>
    match regIdx r with
    | .ok _ => if 255 < s.pc.toNat + 2 ∨ (readReg Config.sp s).toNat = 0 then []
        else [.write ((readReg Config.sp s).toNat - 1) (BitVec.ofNat 8 (s.pc.toNat + 2))]
    | .error _ => []
  | .pop r =>
    match regIdx r with
    | .ok _ => if (readReg Config.sp s).toNat = 255 then [] else [.read (readReg Config.sp s).toNat]
    | .error _ => []
  | .ret => if (readReg Config.sp s).toNat = 255 then [] else [.read (readReg Config.sp s).toNat]
  | .hlt => []
  | .ldi _ _ => []
  | .prn _ => []
  | .jmp _ => []
  | .jeq _ => []
  | .jne _ => []
  | .add _ _ => []
  | .mul _ _ => []
  | .and _ _ => []
  | .or _ _ => []
  | .xor _ _ => []
  | .shl _ _ => []
  | .shr _ _ => []
  | .mod _ _ => []
  | .not _ => []
  | .cmp _ _ => []

/-- All accesses of the cycle that begins in `s`: none in HALTED; the opcode alone where it is invalid; the bytes memory has
where an operand address is beyond it; else the instruction's bytes and its data access (40_dispatch.md R110). -/
def cycleAccesses (s : State) : List Access :=
  if s.running then
    match decode (fetchWindow s) with
    | .error (.invalidOpcode _) => instrReads s.pc.toNat 1
    | .error (.missingByte n) => instrReads s.pc.toNat n
    | .ok (i, _) => instrReads s.pc.toNat i.op.len ++ dataAccess s i
  else []

/-- Memory after a sequence of accesses: reads leave it (R55), a write stores its byte. -/
def replay : List Access → Memory → Memory
  | [], m => m
  | .read _ :: rest, m => replay rest m
  | .write a v :: rest, m => replay rest (m.write a v)

end Sys2Proof.Machine
end

