-- ==== Sys2Proof/Machine/HostPort.lean ====
section
/-! DEFINITION. What the outside world can do to the machine and see of it (spec/10_state.md R29, R33;
70_reset_and_hazards.md R230 to R234). The host has no move while the machine runs (R234, decision D22; log 12). -/

namespace Sys2Proof.Machine

/-! ## Reset, program load, start -/

/-- Asserting `rst`: every piece of state takes its reset value, whatever it was before; the only way out of HALTED (R230). -/
def assertReset (_ : State) : State := State.reset

/-- Program load (R232): byte `i` of the image goes to cell `i`, nothing else changes; an image of more than 256 bytes is
refused by the loader and never reaches the core (decision D20). -/
def loadImage (image : List Byte) (s : State) : Option State :=
  if image.length ≤ 256 then some { s with mem := s.mem.writeBytes 0 image } else none

/-- `Init(B)`, the launch state of every run (R233). -/
def launch (image : List Byte) : Option State := loadImage image State.reset

/-! ## Read-only views (R33) -/

/-- The 3-bit `cause` port (R28, 60_exceptions.md R200). -/
def causeCode : Cause → BitVec 3
  | .none => 0
  | .invalidInstruction => 1
  | .divisionByZero => 2
  | .addressOutOfBounds => 3
  | .unsupportedOperation => 4

/-- The 1-bit `info_space` port (R200). -/
def spaceCode : Space → BitVec 1
  | .mem => 0
  | .reg => 1

/-- The 10-bit `info_value` port: the value in two's complement (R33). -/
def infoValueCode (i : Info) : BitVec 10 := BitVec.ofInt 10 i.value

/-- The output ports the host reads (R33). -/
structure Ports where
  running : Bool
  cause : BitVec 3
  infoSpace : BitVec 1
  infoValue : BitVec 10
  dbgX : Vector Byte 8
  dbgPc : PcWord
  dbgFl : Byte
  deriving DecidableEq, Repr

/-- What the ports show of a state (R33). -/
def portsOf (s : State) : Ports where
  running := s.running
  cause := causeCode s.cause
  infoSpace := spaceCode s.info.space
  infoValue := infoValueCode s.info
  dbgX := s.regs
  dbgPc := s.pc
  dbgFl := s.fl

/-! ## The text of the output (R29, R131, decision D18; log 14) -/

/-- The line the output collaborator shows for one value: its minimal decimal digits and one line feed. -/
def decimalLine (v : Byte) : List Char := Nat.toDigits 10 v.toNat ++ [Char.ofNat 10]

/-- The text of an output stream, one line per element in order. -/
def outText (out : List Byte) : List Char := out.flatMap decimalLine

end Sys2Proof.Machine
end

