-- ==== Sys2Proof/Safety.lean ====
section
/-! DEFINITION. What counts as a legal state and a good end (spec/10_state.md R34, 60_exceptions.md R205), and the tables of
the spec that claims are stated against: R25, R35, R206, and the shape of an instruction rule (00_scope.md R10). -/

namespace Sys2Proof.Safety

open Sys2Proof.Machine

/-! ## Ends of a run -/

/-- A state in which a fault has halted the machine: "gone wrong" (60_exceptions.md R205). -/
def WentWrong (s : State) : Prop := s.cause ≠ .none

/-- The normal end of a run, by `HLT` (40_dispatch.md R117). -/
def GoodEnd (s : State) : Prop := s.running = false ∧ s.cause = .none

/-- `s` with a fault taken, written out from the text of R205. -/
def faulted (s : State) (c : Cause) (space : Space) (value : Int) : State :=
  { s with running := false, cause := c, info := ⟨space, value⟩ }

/-- The states a run from `s` passes through (40_dispatch.md R117). -/
inductive Reaches (s : State) : State → Prop where
  | start : Reaches s s
  | next {t u : State} : Reaches s t → step t = .next u → Reaches s u

/-! ## Legal states (10_state.md R34) -/

/-- What `info` may hold beside each cause (60_exceptions.md R200, R203, R204). -/
def InfoLegal : Cause → Info → Prop
  | .none, i => i = ⟨.mem, 0⟩
  | .invalidInstruction, i => ∃ op : Byte, lookupOp op = none ∧ i = ⟨.mem, op.toNat⟩
  | .divisionByZero, i => i = ⟨.mem, 0⟩
  | .addressOutOfBounds, i =>
    i = ⟨.mem, -1⟩ ∨ i = ⟨.mem, 256⟩ ∨ ∃ b : Byte, 7 < b.toNat ∧ i = ⟨.reg, b.toNat⟩
  | .unsupportedOperation, _ => False

/-- The invariants of R34 over one state, with the canonical form of memory. -/
structure Legal (s : State) : Prop where
  memory : s.mem.wf
  pcRange : s.pc.toNat ≤ 256
  flags : s.fl = 0x00 ∨ s.fl = 0x01 ∨ s.fl = 0x02 ∨ s.fl = 0x04
  faultHalts : s.cause ≠ .none → s.running = false
  record : InfoLegal s.cause s.info

/-! ## Register operands -/

/-- The operand byte that names a register. -/
def regByte (r : RegIdx) : Byte := BitVec.ofNat 8 r.val

/-- The value of the register a byte names; 0 where it names none, which no claim relies on. -/
def regAt (b : Byte) (s : State) : Byte :=
  if h : b.toNat < 8 then readReg ⟨b.toNat, h⟩ s else 0

/-- The value of the stack pointer. -/
def spOf (s : State) : Nat := (readReg 7 s).toNat

/-! ## The tables of the spec -/

/-- The table of 10_state.md R25: the program counter after a cycle that did not fault. -/
def pcAfter (s : State) : Instr → Nat
  | .hlt => s.pc.toNat
  | .ldi _ _ => s.pc.toNat + 3
  | .prn _ => s.pc.toNat + 2
  | .st _ _ => s.pc.toNat + 3
  | .push _ => s.pc.toNat + 2
  | .pop _ => s.pc.toNat + 2
  | .call r => if r = 7 then spOf s - 1 else (regAt r s).toNat
  | .ret => (s.mem.read (spOf s)).toNat
  | .jmp r => (regAt r s).toNat
  | .jeq r => if s.fl.getLsbD 0 then (regAt r s).toNat else s.pc.toNat + 2
  | .jne r => if s.fl.getLsbD 0 then s.pc.toNat + 2 else (regAt r s).toNat
  | .add _ _ => s.pc.toNat + 3
  | .mul _ _ => s.pc.toNat + 3
  | .and _ _ => s.pc.toNat + 3
  | .or _ _ => s.pc.toNat + 3
  | .xor _ _ => s.pc.toNat + 3
  | .shl _ _ => s.pc.toNat + 3
  | .shr _ _ => s.pc.toNat + 3
  | .mod _ _ => s.pc.toNat + 3
  | .not _ => s.pc.toNat + 2
  | .cmp _ _ => s.pc.toNat + 3

/-- The register columns of 10_state.md R35: the registers an instruction may write. -/
def writesReg (k : RegIdx) : Instr → Bool
  | .hlt => false
  | .ldi r _ => r == regByte k
  | .prn _ => false
  | .st _ _ => false
  | .push _ => k == 7
  | .pop r => k == 7 || r == regByte k
  | .call _ => k == 7
  | .ret => k == 7
  | .jmp _ => false
  | .jeq _ => false
  | .jne _ => false
  | .add ra _ => ra == regByte k
  | .mul ra _ => ra == regByte k
  | .and ra _ => ra == regByte k
  | .or ra _ => ra == regByte k
  | .xor ra _ => ra == regByte k
  | .shl ra _ => ra == regByte k
  | .shr ra _ => ra == regByte k
  | .mod ra _ => ra == regByte k
  | .not ra => ra == regByte k
  | .cmp _ _ => false

/-- The `Mem` data column of R35: the address an instruction stores to, computed in the state before it, if it stores. -/
def storeAddr (s : State) : Instr → Option Nat
  | .st ra _ => some (regAt ra s).toNat
  | .push _ => some (spOf s - 1)
  | .call _ => some (spOf s - 1)
  | .hlt => none
  | .ldi _ _ => none
  | .prn _ => none
  | .pop _ => none
  | .ret => none
  | .jmp _ => none
  | .jeq _ => none
  | .jne _ => none
  | .add _ _ => none
  | .mul _ _ => none
  | .and _ _ => none
  | .or _ _ => none
  | .xor _ _ => none
  | .shl _ _ => none
  | .shr _ _ => none
  | .mod _ _ => none
  | .not _ => none
  | .cmp _ _ => none

/-- The one data access of an instruction that completes (20_memory.md R56, R60): a write by `ST`, `PUSH` and `CALL`, a read at
the old `x[7]` by `POP` and `RET`, none otherwise. -/
def dataColumn (s : State) : Instr → List Access
  | .st ra rb => [.write (regAt ra s).toNat (regAt rb s)]
  | .push r => [.write (spOf s - 1) (regAt r s)]
  | .call _ => [.write (spOf s - 1) (BitVec.ofNat 8 (s.pc.toNat + 2))]
  | .pop _ => [.read (spOf s)]
  | .ret => [.read (spOf s)]
  | .hlt => []
  | .ldi _ _ => []
  | .prn _ => []
  | .jmp _ => []
  | .jeq _ => []
  | .jne _ => []
  | .add _ _ => []
  | .mul _ _ => []
  | .and _ _ => []
  | .or _ _ => []
  | .xor _ _ => []
  | .shl _ _ => []
  | .shr _ _ => []
  | .mod _ _ => []
  | .not _ => []
  | .cmp _ _ => []

/-- How many of the bytes at the program counter a cycle reads whose fetch faults: none beyond memory, the opcode alone where it
is invalid, else the bytes memory has (40_dispatch.md R111 to R113). -/
def readsOfFaultingFetch (s : State) : Nat :=
  if s.pc.toNat = 256 then 0
  else if lookupOp (s.mem.read s.pc.toNat) = none then 1
  else 256 - s.pc.toNat

/-- Row 7 of the table of 60_exceptions.md R206: an operation's own checks, in the order its pseudocode writes them. -/
def ownFault (s : State) (b2 : Byte) : Op → Option (Cause × Info)
  | .call =>
    if 255 < s.pc.toNat + 2 then some (.addressOutOfBounds, ⟨.mem, 256⟩)
    else if spOf s = 0 then some (.addressOutOfBounds, ⟨.mem, -1⟩) else none
  | .push => if spOf s = 0 then some (.addressOutOfBounds, ⟨.mem, -1⟩) else none
  | .pop => if spOf s = 255 then some (.addressOutOfBounds, ⟨.mem, 256⟩) else none
  | .ret => if spOf s = 255 then some (.addressOutOfBounds, ⟨.mem, 256⟩) else none
  | .mod => if regAt b2 s = 0 then some (.divisionByZero, ⟨.mem, 0⟩) else none
  | .hlt => none
  | .ldi => none
  | .prn => none
  | .st => none
  | .jmp => none
  | .jeq => none
  | .jne => none
  | .add => none
  | .mul => none
  | .and => none
  | .or => none
  | .xor => none
  | .shl => none
  | .shr => none
  | .not => none
  | .cmp => none

/-- The table of 60_exceptions.md R206, read from the top: the fault the cycle that begins in `s` raises, if any. -/
def firstFault (s : State) : Option (Cause × Info) :=
  let pc := s.pc.toNat
  if pc = 256 then some (.addressOutOfBounds, ⟨.mem, 256⟩) else
  match lookupOp (s.mem.read pc) with
  | none => some (.invalidInstruction, ⟨.mem, (s.mem.read pc).toNat⟩)
  | some o =>
    let b1 := s.mem.read (pc + 1)
    let b2 := s.mem.read (pc + 2)
    if 2 ≤ o.len ∧ 255 < pc + 1 then some (.addressOutOfBounds, ⟨.mem, 256⟩)
    else if o.len = 3 ∧ 255 < pc + 2 then some (.addressOutOfBounds, ⟨.mem, 256⟩)
    else if o.format ≠ .n ∧ 7 < b1.toNat then some (.addressOutOfBounds, ⟨.reg, b1.toNat⟩)
    else if o.format = .rr ∧ 7 < b2.toNat then some (.addressOutOfBounds, ⟨.reg, b2.toNat⟩)
    else ownFault s b2 o

/-! ## The parts of an instruction rule (00_scope.md R10) -/

/-- Encoding of an instruction without operands: one byte. -/
def EncodedN (opc : Byte) (i : Instr) : Prop := ∀ rest, decode (opc :: rest) = .ok (i, rest)

/-- Encoding of format R: the register byte follows the opcode. -/
def EncodedR (opc : Byte) (mk : Byte → Instr) : Prop :=
  ∀ b rest, decode (opc :: b :: rest) = .ok (mk b, rest)

/-- Encoding of formats RR and RI: the first-named operand in the first operand byte. -/
def EncodedTwo (opc : Byte) (mk : Byte → Byte → Instr) : Prop :=
  ∀ b1 b2 rest, decode (opc :: b1 :: b2 :: rest) = .ok (mk b1 b2, rest)

/-- The answer `r` of a cycle that began in `s` is a fault taken: halted, cause and info recorded, nothing else changed but,
perhaps, the program counter, of which the statements of decision D8 speak (`FaultsArePrecise`,
`FirstBadRegisterByteFaults`, `OperandBeyondMemoryFaults`). -/
def Raises (s : State) (r : Answer) (c : Cause) (space : Space) (value : Int) : Prop :=
  ∃ t, r = .next t ∧ t = { faulted s c space value with pc := t.pc }

/-- Operand fetch: where memory ends before the instruction of length `len` does, the cycle raises
`AddressOutOfBounds(MEM, 256)`. -/
def FaultsWhereMemoryEnds (opc : Byte) (len : Nat) : Prop :=
  ∀ s : State, s.running = true → s.pc.toNat ≤ 255 → 256 < s.pc.toNat + len → s.mem.read s.pc.toNat = opc →
    Raises s (step s) .addressOutOfBounds .mem 256

/-- A register byte above 7 raises `AddressOutOfBounds(REG, b)`. -/
def FaultsOnBadRegister (mk : Byte → Instr) : Prop :=
  ∀ (s : State) (b : Byte), 7 < b.toNat →
    Raises s (exec (mk b) s) .addressOutOfBounds .reg b.toNat

/-- Format RR: either register byte above 7 faults, the first reported first. -/
def FaultsOnBadRegisters (mk : Byte → Byte → Instr) : Prop :=
  (∀ (s : State) (b1 b2 : Byte), 7 < b1.toNat →
    Raises s (exec (mk b1 b2) s) .addressOutOfBounds .reg b1.toNat) ∧
  (∀ (s : State) (ra : RegIdx) (b2 : Byte), 7 < b2.toNat →
    Raises s (exec (mk (regByte ra) b2) s) .addressOutOfBounds .reg b2.toNat)

/-- Nothing but registers and the program counter differs: in particular every byte of memory and every flag is kept. -/
def OnlyRegsAndPc (s t : State) : Prop :=
  t = { s with regs := t.regs, pc := t.pc } ∧ ∀ a, t.mem.read a = s.mem.read a

/-- Nothing but the program counter differs. -/
def OnlyPc (s t : State) : Prop :=
  t = { s with pc := t.pc } ∧ ∀ a, t.mem.read a = s.mem.read a

/-- Register `r` holds `v`, every other register what it held before. -/
def RegBecomes (s t : State) (r : RegIdx) (v : Byte) : Prop :=
  ∀ k, readReg k t = if k = r then v else readReg k s

/-- The byte at address `a` is `v`, every other byte what it was before. -/
def ByteBecomes (s t : State) (a : Nat) (v : Byte) : Prop :=
  ∀ b, t.mem.read b = if b = a then v else s.mem.read b

/-- The shape of a two-operand ALU rule (44_alu.md R170): encoding, faults, and for every two registers and every state
whose instruction lies in memory the result in `x[ra]` as the relation gives it, the program counter 3 further, nothing
else changed. -/
def AluRule (opc : Byte) (mk : Byte → Byte → Instr) (result : Byte → Byte → Byte → Prop) : Prop :=
  EncodedTwo opc mk ∧ FaultsWhereMemoryEnds opc 3 ∧ FaultsOnBadRegisters mk ∧
  ∀ (s : State) (ra rb : RegIdx), s.pc.toNat ≤ 253 →
    ∃ t v, exec (mk (regByte ra) (regByte rb)) s = .next t ∧
      result (readReg ra s) (readReg rb s) v ∧ RegBecomes s t ra v ∧
      t.pc.toNat = s.pc.toNat + 3 ∧ OnlyRegsAndPc s t

end Sys2Proof.Safety
end

