-- ==== Sys2Proof/Certificates/Slice0/Obligations.lean ====
section
/-! DEFINITION. The statements for the provers. Each docstring says which statement of spec/ it formalises; where a clause rests
on one of the spec's own decisions (D<n> of 92_eei_decisions.md) or derivations, it says so. -/

open Sys2Proof Sys2Proof.Machine Sys2Proof.Safety

/-! ## One statement per instruction: encoding, faults, result, frame, completion -/

/-- 40_dispatch.md, `HLT` (decision D9 for the program counter): the running flag is cleared and nothing else changes, the
program counter, cause and info included; a one-byte instruction, so it halts at address 255 too. -/
def Obligations.HaltStopsAtItsAddress : Prop :=
  EncodedN Config.opcHlt .hlt ∧ ∀ s : State, exec .hlt s = .next { s with running := false }

/-- 41_data.md R130, `LDI`: any immediate byte is stored as is; the immediate is not checked as a register. -/
def Obligations.LoadImmediateStoresItsByte : Prop :=
  EncodedTwo Config.opcLdi .ldi ∧ FaultsWhereMemoryEnds Config.opcLdi 3 ∧
  (∀ imm, FaultsOnBadRegister (fun b => .ldi b imm)) ∧
  ∀ (s : State) (r : RegIdx) (imm : Byte), s.pc.toNat ≤ 253 →
    ∃ t, exec (.ldi (regByte r) imm) s = .next t ∧ RegBecomes s t r imm ∧
      t.pc.toNat = s.pc.toNat + 3 ∧ OnlyRegsAndPc s t

/-- 41_data.md R131, `PRN`: the register's value is appended to the output, whose text gains its minimal decimal digits
(as `Nat.repr` writes them) and a line feed; registers, memory and flags are unchanged. -/
def Obligations.PrintAppendsTheRegister : Prop :=
  EncodedR Config.opcPrn .prn ∧ FaultsWhereMemoryEnds Config.opcPrn 2 ∧ FaultsOnBadRegister .prn ∧
  ∀ (s : State) (r : RegIdx), s.pc.toNat ≤ 254 →
    ∃ t, exec (.prn (regByte r)) s = .next t ∧ t.out = s.out ++ [readReg r s] ∧
      outText t.out = outText s.out ++ (Nat.repr (readReg r s).toNat).toList ++ ['\n'] ∧
      t.pc.toNat = s.pc.toNat + 2 ∧ t = { s with out := t.out, pc := t.pc } ∧
      ∀ a, t.mem.read a = s.mem.read a

/-- 41_data.md R132, `ST`: the cell at `x[ra]` takes `x[rb]`, every other cell and every register is unchanged, whether or
not the two operands are the same register and whichever cell is hit. Memory in its canonical form is the premise that
`StepKeepsLegal` keeps. -/
def Obligations.StoreWritesTheAddressedCell : Prop :=
  EncodedTwo Config.opcSt .st ∧ FaultsWhereMemoryEnds Config.opcSt 3 ∧ FaultsOnBadRegisters .st ∧
  ∀ (s : State) (ra rb : RegIdx), s.mem.wf → s.pc.toNat ≤ 253 →
    ∃ t, exec (.st (regByte ra) (regByte rb)) s = .next t ∧
      ByteBecomes s t (readReg ra s).toNat (readReg rb s) ∧
      t.pc.toNat = s.pc.toNat + 3 ∧ t = { s with mem := t.mem, pc := t.pc }

/-- 42_stack.md, `Push` and `PUSH` (decisions D6, D13): the value the register had before the stack pointer moved goes to
the cell below the old stack pointer, register 7 not excepted; with `x[7] = 0` the fault `(MEM, -1)` and nothing else. -/
def Obligations.PushStoresBelowTheStackPointer : Prop :=
  EncodedR Config.opcPush .push ∧ FaultsWhereMemoryEnds Config.opcPush 2 ∧ FaultsOnBadRegister .push ∧
  (∀ (s : State) (r : RegIdx), spOf s = 0 →
    exec (.push (regByte r)) s = .next (faulted s .addressOutOfBounds .mem (-1))) ∧
  ∀ (s : State) (r : RegIdx), s.mem.wf → s.pc.toNat ≤ 254 → 1 ≤ spOf s →
    ∃ t, exec (.push (regByte r)) s = .next t ∧
      RegBecomes s t 7 (BitVec.ofNat 8 (spOf s - 1)) ∧ ByteBecomes s t (spOf s - 1) (readReg r s) ∧
      t.pc.toNat = s.pc.toNat + 2 ∧ t = { s with regs := t.regs, mem := t.mem, pc := t.pc }

/-- 42_stack.md, `Pop` and `POP` (decisions D6, D13): the register takes the byte at the stack pointer, which then moves one
higher unless it is itself the register; memory keeps the popped cell; with `x[7] = 255` the fault `(MEM, 256)`. -/
def Obligations.PopTakesTheTopOfStack : Prop :=
  EncodedR Config.opcPop .pop ∧ FaultsWhereMemoryEnds Config.opcPop 2 ∧ FaultsOnBadRegister .pop ∧
  (∀ (s : State) (r : RegIdx), spOf s = 255 →
    exec (.pop (regByte r)) s = .next (faulted s .addressOutOfBounds .mem 256)) ∧
  ∀ (s : State) (r : RegIdx), s.pc.toNat ≤ 254 → spOf s ≤ 254 →
    ∃ t, exec (.pop (regByte r)) s = .next t ∧
      (∀ k, readReg k t = if k = r then s.mem.read (spOf s)
        else if k = 7 then BitVec.ofNat 8 (spOf s + 1) else readReg k s) ∧
      t.pc.toNat = s.pc.toNat + 2 ∧ OnlyRegsAndPc s t

/-- 42_stack.md, `CALL` (decisions D6, D7, D13): the return address `pc + 2` is pushed and the program counter takes the
register's value after the push, so `CALL R7` goes to the cell just written. At address 254 the fault `(MEM, 256)`, first;
with `x[7] = 0` the fault `(MEM, -1)`; neither changes anything else. -/
def Obligations.CallPushesTheReturnAddress : Prop :=
  EncodedR Config.opcCall .call ∧ FaultsWhereMemoryEnds Config.opcCall 2 ∧ FaultsOnBadRegister .call ∧
  (∀ (s : State) (r : RegIdx), s.pc.toNat = 254 →
    exec (.call (regByte r)) s = .next (faulted s .addressOutOfBounds .mem 256)) ∧
  (∀ (s : State) (r : RegIdx), s.pc.toNat ≤ 253 → spOf s = 0 →
    exec (.call (regByte r)) s = .next (faulted s .addressOutOfBounds .mem (-1))) ∧
  ∀ (s : State) (r : RegIdx), s.mem.wf → s.pc.toNat ≤ 253 → 1 ≤ spOf s →
    ∃ t, exec (.call (regByte r)) s = .next t ∧
      RegBecomes s t 7 (BitVec.ofNat 8 (spOf s - 1)) ∧
      ByteBecomes s t (spOf s - 1) (BitVec.ofNat 8 (s.pc.toNat + 2)) ∧
      t.pc.toNat = (if r = 7 then spOf s - 1 else (readReg r s).toNat) ∧
      t = { s with regs := t.regs, mem := t.mem, pc := t.pc }

/-- 42_stack.md R145, `RET`: the program counter takes the byte at the stack pointer, whatever it is; no register but
`x[7]` changes; with `x[7] = 255` the fault `(MEM, 256)` and nothing else. The last clause is the rule's property: after a
`CALL` whose subroutine leaves `x[7]` and the cell it points at as it found them, `RET` returns to the call address + 2. -/
def Obligations.ReturnPopsTheProgramCounter : Prop :=
  EncodedN Config.opcRet .ret ∧
  (∀ s : State, spOf s = 255 → exec .ret s = .next (faulted s .addressOutOfBounds .mem 256)) ∧
  (∀ s : State, spOf s ≤ 254 →
    ∃ t, exec .ret s = .next t ∧ t.pc.toNat = (s.mem.read (spOf s)).toNat ∧
      RegBecomes s t 7 (BitVec.ofNat 8 (spOf s + 1)) ∧ OnlyRegsAndPc s t) ∧
  ∀ (s t u : State) (r : RegIdx), s.mem.wf → s.pc.toNat ≤ 253 → 1 ≤ spOf s →
    exec (.call (regByte r)) s = .next t →
    spOf u = spOf t → u.mem.read (spOf t) = t.mem.read (spOf t) →
    ∃ v, exec .ret u = .next v ∧ v.pc.toNat = s.pc.toNat + 2 ∧ spOf v = spOf s

/-- 43_jumps.md R160, `JMP`: the program counter takes the register's value, the length is not added, nothing else changes. -/
def Obligations.JumpTakesTheRegister : Prop :=
  EncodedR Config.opcJmp .jmp ∧ FaultsWhereMemoryEnds Config.opcJmp 2 ∧ FaultsOnBadRegister .jmp ∧
  ∀ (s : State) (r : RegIdx),
    ∃ t, exec (.jmp (regByte r)) s = .next t ∧ t.pc.toNat = (readReg r s).toNat ∧ OnlyPc s t

/-- 43_jumps.md R161, `JEQ`: taken exactly when bit 0 of the flags byte is set, else 2 bytes on; bits 1 and 2 are not looked
at; a bad register byte faults taken or not. -/
def Obligations.JumpIfEqualReadsTheEqualFlag : Prop :=
  EncodedR Config.opcJeq .jeq ∧ FaultsWhereMemoryEnds Config.opcJeq 2 ∧ FaultsOnBadRegister .jeq ∧
  (∀ (s : State) (r : RegIdx), s.fl.getLsbD 0 = true →
    ∃ t, exec (.jeq (regByte r)) s = .next t ∧ t.pc.toNat = (readReg r s).toNat ∧ OnlyPc s t) ∧
  ∀ (s : State) (r : RegIdx), s.fl.getLsbD 0 = false → s.pc.toNat ≤ 254 →
    ∃ t, exec (.jeq (regByte r)) s = .next t ∧ t.pc.toNat = s.pc.toNat + 2 ∧ OnlyPc s t

/-- 43_jumps.md R162, `JNE`: taken exactly when bit 0 of the flags byte is clear, else 2 bytes on; so before any compare,
with the flags byte 0x00, it is taken. -/
def Obligations.JumpIfNotEqualReadsTheEqualFlag : Prop :=
  EncodedR Config.opcJne .jne ∧ FaultsWhereMemoryEnds Config.opcJne 2 ∧ FaultsOnBadRegister .jne ∧
  (∀ (s : State) (r : RegIdx), s.fl.getLsbD 0 = false →
    ∃ t, exec (.jne (regByte r)) s = .next t ∧ t.pc.toNat = (readReg r s).toNat ∧ OnlyPc s t) ∧
  ∀ (s : State) (r : RegIdx), s.fl.getLsbD 0 = true → s.pc.toNat ≤ 254 →
    ∃ t, exec (.jne (regByte r)) s = .next t ∧ t.pc.toNat = s.pc.toNat + 2 ∧ OnlyPc s t

/-- 44_alu.md R171, `ADD`: the sum modulo 256, no flag written. -/
def Obligations.AddWrapsModulo256 : Prop :=
  AluRule Config.opcAdd .add (fun a b v => v.toNat = (a.toNat + b.toNat) % 256)

/-- 44_alu.md, `MUL` (decision D1 for the width): the low byte of the product. -/
def Obligations.MultiplyKeepsTheLowByte : Prop :=
  AluRule Config.opcMul .mul (fun a b v => v.toNat = (a.toNat * b.toNat) % 256)

/-- 44_alu.md R173, `AND`: bit by bit. -/
def Obligations.AndIsBitwise : Prop :=
  AluRule Config.opcAnd .and (fun a b v => ∀ j < 8, v.getLsbD j = (a.getLsbD j && b.getLsbD j))

/-- 44_alu.md R174, `OR`: bit by bit. -/
def Obligations.OrIsBitwise : Prop :=
  AluRule Config.opcOr .or (fun a b v => ∀ j < 8, v.getLsbD j = (a.getLsbD j || b.getLsbD j))

/-- 44_alu.md R175, `XOR`: bit by bit. -/
def Obligations.XorIsBitwise : Prop :=
  AluRule Config.opcXor .xor (fun a b v => ∀ j < 8, v.getLsbD j = (a.getLsbD j ^^ b.getLsbD j))

/-- 44_alu.md R176, `SHL`: bit `j` of the result is bit `j - n` of the operand, zeros enter below, and a count of 8 or more,
not masked, gives 0. -/
def Obligations.ShiftLeftTakesTheWholeCount : Prop :=
  AluRule Config.opcShl .shl (fun a n v =>
    v.toNat = (a.toNat <<< n.toNat) % 256 ∧ (8 ≤ n.toNat → v = 0) ∧
    ∀ j < 8, v.getLsbD j = (decide (n.toNat ≤ j) && a.getLsbD (j - n.toNat)))

/-- 44_alu.md, `SHR` (decision D15 for the count): bit `j` of the result is bit `j + n` of the operand, zeros enter above, and a
count of 8 or more, not masked, gives 0. -/
def Obligations.ShiftRightFillsWithZeros : Prop :=
  AluRule Config.opcShr .shr (fun a n v =>
    v.toNat = a.toNat / 2 ^ n.toNat ∧ (8 ≤ n.toNat → v = 0) ∧
    ∀ j < 8, v.getLsbD j = a.getLsbD (j + n.toNat))

/-- 44_alu.md, `MOD` (decisions D8, D16): for a divisor that is not 0 the unsigned remainder, the `r` below the divisor with
`a = q * b + r`; for a zero divisor, 0 mod 0 too, the fault `DivisionByZero` with info `(MEM, 0)` and nothing else changed. -/
def Obligations.RemainderOrDivisionByZero : Prop :=
  EncodedTwo Config.opcMod .mod ∧ FaultsWhereMemoryEnds Config.opcMod 3 ∧ FaultsOnBadRegisters .mod ∧
  (∀ (s : State) (ra rb : RegIdx), readReg rb s = 0 →
    exec (.mod (regByte ra) (regByte rb)) s = .next (faulted s .divisionByZero .mem 0)) ∧
  ∀ (s : State) (ra rb : RegIdx), s.pc.toNat ≤ 253 → readReg rb s ≠ 0 →
    ∃ t v, exec (.mod (regByte ra) (regByte rb)) s = .next t ∧
      (∃ q, (readReg ra s).toNat = q * (readReg rb s).toNat + v.toNat ∧ v.toNat < (readReg rb s).toNat) ∧
      RegBecomes s t ra v ∧ t.pc.toNat = s.pc.toNat + 3 ∧ OnlyRegsAndPc s t

/-- 44_alu.md, `NOT` (decision D17): every bit inverted, `255 - x[ra]`; applied twice it restores the register. -/
def Obligations.ComplementInvertsEveryBit : Prop :=
  EncodedR Config.opcNot .not ∧ FaultsWhereMemoryEnds Config.opcNot 2 ∧ FaultsOnBadRegister .not ∧
  (∀ (s : State) (r : RegIdx), s.pc.toNat ≤ 254 →
    ∃ t v, exec (.not (regByte r)) s = .next t ∧ v.toNat = 255 - (readReg r s).toNat ∧
      (∀ j < 8, v.getLsbD j = !(readReg r s).getLsbD j) ∧
      RegBecomes s t r v ∧ t.pc.toNat = s.pc.toNat + 2 ∧ OnlyRegsAndPc s t) ∧
  ∀ (s : State) (r : RegIdx),
    ∃ t u, exec (.not (regByte r)) s = .next t ∧ exec (.not (regByte r)) t = .next u ∧ u.regs = s.regs

/-- 44_alu.md, `CMP` (decision D16 for unsigned): the whole flags byte becomes 0x01, 0x02 or 0x04 by numeric comparison of the
two values, whatever it held; neither register changes. -/
def Obligations.CompareOverwritesTheFlags : Prop :=
  EncodedTwo Config.opcCmp .cmp ∧ FaultsWhereMemoryEnds Config.opcCmp 3 ∧ FaultsOnBadRegisters .cmp ∧
  ∀ (s : State) (ra rb : RegIdx), s.pc.toNat ≤ 253 →
    ∃ t, exec (.cmp (regByte ra) (regByte rb)) s = .next t ∧
      ((readReg ra s).toNat = (readReg rb s).toNat → t.fl = 0x01) ∧
      ((readReg rb s).toNat < (readReg ra s).toNat → t.fl = 0x02) ∧
      ((readReg ra s).toNat < (readReg rb s).toNat → t.fl = 0x04) ∧
      t.pc.toNat = s.pc.toNat + 3 ∧ t = { s with fl := t.fl, pc := t.pc } ∧
      ∀ a, t.mem.read a = s.mem.read a

/-! ## The cycle -/

/-- 40_dispatch.md section 1, register-index validation (decisions D5, D8, D14): for every instruction and every state, the first
register byte above 7, in operand order, raises `AddressOutOfBounds(REG, b)` and changes nothing else, taken jump or not;
every byte is a legal immediate of `LDI`. -/
def Obligations.FirstBadRegisterByteFaults : Prop :=
  (∀ (i : Instr) (s : State) (b : Byte), i.badRegByte = some b →
    exec i s = .next (faulted s .addressOutOfBounds .reg b.toNat)) ∧
  ∀ (r : RegIdx) (imm : Byte), (Instr.ldi (regByte r) imm).badRegByte = none

/-- 40_dispatch.md R112: a byte of the table yields its instruction with its length; any other byte raises
`InvalidInstruction` with that byte as info, nothing else changes, and the only memory access of the cycle is the read of
that byte. -/
def Obligations.OpcodeMatchedWholeOrInvalid : Prop :=
  (∀ (o : Op) (b1 b2 : Byte) (rest : List Byte),
    ∃ i, decode (o.byte :: b1 :: b2 :: rest) = .ok (i, (b1 :: b2 :: rest).drop (o.len - 1)) ∧ i.op = o ∧
      i.operands = (b1 :: b2 :: rest).take (o.len - 1)) ∧
  ∀ s : State, s.running = true → s.pc.toNat ≤ 255 → (∀ o : Op, o.byte ≠ s.mem.read s.pc.toNat) →
    step s = .next (faulted s .invalidInstruction .mem (s.mem.read s.pc.toNat).toNat) ∧
      cycleAccesses s = [.read s.pc.toNat]

/-- 40_dispatch.md, fetch (decision D4): at `pc = 256` the cycle raises `AddressOutOfBounds(MEM, 256)` and drives no access
(10_state.md section 6: an address outside 0..255 is never driven). -/
def Obligations.FetchBeyondMemoryFaults : Prop :=
  ∀ s : State, s.running = true → s.pc.toNat = 256 →
    step s = .next (faulted s .addressOutOfBounds .mem 256) ∧ cycleAccesses s = []

/-- 40_dispatch.md, operand fetch (decisions D3, D14): for every operation whose bytes do not all lie in memory the cycle raises
`AddressOutOfBounds(MEM, 256)`, whatever the operand bytes and flags; the bytes memory has are read and none beyond. -/
def Obligations.OperandBeyondMemoryFaults : Prop :=
  ∀ (o : Op) (s : State), s.running = true → s.pc.toNat ≤ 255 → s.mem.read s.pc.toNat = o.byte →
    256 < s.pc.toNat + o.len →
    step s = .next (faulted s .addressOutOfBounds .mem 256) ∧
      cycleAccesses s = instrReads s.pc.toNat (256 - s.pc.toNat)

/-- 40_dispatch.md section 1 with 93_implementation_defined.md ("`Step` gives exactly one successor or no step (halted)"): a
step exists exactly while running, and no step is a refusal. -/
def Obligations.StepExistsExactlyWhileRunning : Prop :=
  ∀ s : State, (s.running = true → ∃ t, step s = .next t) ∧ (s.running = false → step s = .fault .halted)

/-- When the bytes of memory at the program counter are those of an instruction and lie within memory, a running state's
step is that instruction's execution, with nothing around it (40_dispatch.md section 1). -/
def Obligations.StepRunsTheDecodedInstruction : Prop :=
  ∀ (s : State) (i : Instr), s.running = true → s.pc.toNat + i.op.len ≤ 256 →
    (∀ k < i.op.len, s.mem.read (s.pc.toNat + k) = (encode i).getD k 0) → step s = exec i s

/-- 10_state.md section 2 and 95_test_vectors.md S4 (decisions D8, D9 for the halting cases): after a cycle from a legal state
the program counter is what the table gives for the instruction where no fault was raised, and unchanged where one was;
the machine still runs exactly where no fault was raised and the instruction was not `HLT`. -/
def Obligations.ProgramCounterFollowsItsTable : Prop :=
  ∀ (s t : State) (i : Instr), Legal s → fetch s = .ok i → step s = .next t →
    (t.cause = .none → t.pc.toNat = pcAfter s i) ∧ (t.cause ≠ .none → t.pc = s.pc) ∧
    (t.running = true ↔ t.cause = .none ∧ i ≠ .hlt)

/-- 60_exceptions.md section 2, taking a fault (decision D8): a step that raises a fault changes the running flag, cause and
info and nothing else, and leaves the machine halted for good. -/
def Obligations.FaultsArePrecise : Prop :=
  ∀ s t : State, Legal s → step s = .next t → WentWrong t →
    t = faulted s t.cause t.info.space t.info.value ∧ step t = .fault .halted

/-- 60_exceptions.md section 2, priority (decision D21): every cycle raises the first fault of the priority table that applies,
with its info, and none where none applies. -/
def Obligations.FirstFaultOfTheTableIsRaised : Prop :=
  ∀ s t : State, Legal s → step s = .next t →
    match firstFault s with
    | some (c, i) => t = faulted s c i.space i.value
    | none => t.cause = .none

/-- 40_dispatch.md section 1 (a run need not end, and nothing detects it): a jump to itself is a step that leaves the state as it
is, for any number of steps. -/
def Obligations.JumpToItselfRunsForever : Prop :=
  ∀ (s : State) (r : RegIdx) (n : Nat), s.running = true → s.pc.toNat ≤ 254 →
    s.mem.read s.pc.toNat = Config.opcJmp → s.mem.read (s.pc.toNat + 1) = regByte r →
    (readReg r s).toNat = s.pc.toNat → core.run n s = .next s

/-! ## Reset and invariants -/

/-- 10_state.md section 5 and 70_reset_and_hazards.md section 1: the stack pointer, flags and running flag as the source gives
them, `pc` 0 as the spec derives; the zeros of `x[0]` to `x[6]` and of memory, and cause, info and out, are the spec's
decision D10 (log 2, log 3). -/
def Obligations.ResetValues : Prop :=
  ∀ s : State, assertReset s = State.reset ∧
    (∀ k : RegIdx, readReg k State.reset = if k = 7 then 0xF4 else 0x00) ∧ State.reset.pc = 0 ∧
    State.reset.fl = 0x00 ∧ State.reset.running = true ∧ State.reset.cause = .none ∧
    State.reset.info = ⟨.mem, 0⟩ ∧ State.reset.out = [] ∧ ∀ a, State.reset.mem.read a = 0x00

/-- The reset state is legal (10_state.md section 7). -/
def Obligations.ResetIsLegal : Prop := Legal State.reset

/-- 10_state.md section 7 (invariants, derived there): every step from a legal state leaves a legal state. -/
def Obligations.StepKeepsLegal : Prop :=
  ∀ s t : State, Legal s → step s = .next t → Legal t

/-- 10_state.md sections 3 and 7: only `CMP` changes the flags byte, over all instructions, and once a compare has set a flag the
byte is never 0x00 again. -/
def Obligations.OnlyCompareWritesFlags : Prop :=
  ∀ (s t : State) (i : Instr), fetch s = .ok i → step s = .next t →
    (t.fl ≠ s.fl → i.op = .cmp) ∧ (s.fl ≠ 0x00 → t.fl ≠ 0x00)

/-- 10_state.md section 7 (access summary, derived there): over all instructions, a register the table does not let the
instruction write keeps its value. -/
def Obligations.OnlyTheTablesRegistersChange : Prop :=
  ∀ (s t : State) (i : Instr) (k : RegIdx), fetch s = .ok i → step s = .next t →
    writesReg k i = false → readReg k t = readReg k s

/-- 20_memory.md section 2 and 10_state.md section 7 (derived there): over all instructions, every byte of memory outside the
address the instruction stores to reads as before; only `ST`, `PUSH` and `CALL` have such an address. -/
def Obligations.OnlyTheStoredByteChanges : Prop :=
  ∀ (s t : State) (i : Instr) (a : Nat), Legal s → fetch s = .ok i → step s = .next t →
    storeAddr s i ≠ some a → t.mem.read a = s.mem.read a

/-- 10_state.md section 4: the output only grows, by one value, and only by `PRN`, which appends its register. -/
def Obligations.OnlyPrintEmits : Prop :=
  ∀ (s t : State) (i : Instr), fetch s = .ok i → step s = .next t →
    t.out = s.out ∨ ∃ r : RegIdx, i = .prn (regByte r) ∧ t.out = s.out ++ [readReg r s]

/-- 10_state.md section 1, "no rule reads them except as an explicit instruction operand", for every register but the stack
pointer, `x[5]` and `x[6]` among them (decision D24): an instruction that does not name register `k` behaves the same
whatever `k` holds, and leaves it alone. -/
def Obligations.UnnamedRegistersAreInert : Prop :=
  ∀ (i : Instr) (k : RegIdx) (v : Nat) (s : State), k ≠ 7 → regByte k ∉ i.regBytes →
    ∃ t, exec i s = .next t ∧ exec i (writeReg k v s) = .next (writeReg k v t) ∧ readReg k t = readReg k s

/-! ## Memory -/

/-- 20_memory.md R51, the access primitives: outside 0..255 they raise `AddressOutOfBounds(MEM, a)`; inside, a read gives the
cell's byte and a write changes that cell and no other. -/
def Obligations.MemoryPrimitivesCheckBounds : Prop :=
  (∀ (s : State) (a : Int) (v : Byte), (a < 0 ∨ 255 < a) →
    memRead a s = .error ⟨.addressOutOfBounds, ⟨.mem, a⟩⟩ ∧
    memWrite a v s = .error ⟨.addressOutOfBounds, ⟨.mem, a⟩⟩) ∧
  ∀ (s : State) (a : Int) (v : Byte), s.mem.wf → 0 ≤ a → a ≤ 255 →
    memRead a s = .ok (s.mem.read a.toNat) ∧
    ∃ t, memWrite a v s = .ok t ∧ ByteBecomes s t a.toNat v ∧ t = { s with mem := t.mem }

/-- 20_memory.md section 4 (derived there): a byte that `ST` stores is what the very next fetch sees at its address, even just
after the `ST` itself, and the `ST` is not disturbed by storing over its own bytes. -/
def Obligations.StoreIsSeenByTheNextFetch : Prop :=
  ∀ (s : State) (ra rb : RegIdx), Legal s → s.running = true → s.pc.toNat ≤ 252 →
    s.mem.read s.pc.toNat = Config.opcSt → s.mem.read (s.pc.toNat + 1) = regByte ra →
    s.mem.read (s.pc.toNat + 2) = regByte rb →
    ∃ t, step s = .next t ∧ t.running = true ∧ t.pc.toNat = s.pc.toNat + 3 ∧
      (fetchWindow t).head? = some (if (readReg ra s).toNat = s.pc.toNat + 3 then readReg rb s
        else s.mem.read (s.pc.toNat + 3))

/-- 20_memory.md section 4 (order of accesses, derived there): the accesses of a cycle are reads of all the fetched
instruction's bytes in ascending order and then the data access the table gives the instruction, at `x[7]` for `POP` and
`RET`, or none where the instruction faults; of a fetch that faults, the reads made before it; every address driven is
0..255; and the memory a step leaves is what those accesses, in that order, make of the memory before it. -/
def Obligations.AccessesReplayToTheNextMemory : Prop :=
  ∀ s t : State, Legal s → step s = .next t →
    (∀ i, fetch s = .ok i →
      cycleAccesses s = instrReads s.pc.toNat i.op.len ++ (if t.cause = .none then dataColumn s i else [])) ∧
    (∀ e, fetch s = .error e → cycleAccesses s = instrReads s.pc.toNat (readsOfFaultingFetch s)) ∧
    (∀ a, Access.read a ∈ cycleAccesses s → a ≤ 255) ∧
    (∀ a v, Access.write a v ∈ cycleAccesses s → a ≤ 255) ∧
    t.mem = replay (cycleAccesses s) s.mem

/-! ## Stack -/

/-- 42_stack.md, the property of `POP`: a push and a pop of the same register, other than 7, give back the register and the stack
pointer, and the cell below keeps the pushed value. -/
def Obligations.PushThenPopRestores : Prop :=
  ∀ (s : State) (r : RegIdx), s.mem.wf → r ≠ 7 → 1 ≤ spOf s →
    ∃ t u, exec (.push (regByte r)) s = .next t ∧ exec (.pop (regByte r)) t = .next u ∧
      u.regs = s.regs ∧ u.mem.read (spOf s - 1) = readReg r s

/-- 42_stack.md section 3 (derived there): from reset, 244 pushes succeed, each one cell lower, and the 245th faults. -/
def Obligations.StackHolds244Pushes : Prop :=
  ∀ vs : List Byte,
    (vs.length ≤ 244 → ∃ t, vs.foldlM (fun s v => push v s) State.reset = .ok t ∧
      spOf t = 244 - vs.length ∧ ∀ k < vs.length, t.mem.read (243 - k) = vs.getD k 0) ∧
    (244 < vs.length → vs.foldlM (fun s v => push v s) State.reset = .error ⟨.addressOutOfBounds, ⟨.mem, -1⟩⟩)

/-! ## Encoding and decoder -/

/-- Bytes decode to an instruction exactly where they are its encoding followed by the bytes left over: every instruction, with
every operand byte, is read back from its own bytes, and no bytes have a second reading. -/
def Obligations.DecodeAgreesWithEncode : Prop :=
  ∀ (bs rest : List Byte) (i : Instr), decode bs = .ok (i, rest) ↔ bs = encode i ++ rest

/-- Words written out from the encodings of 30_encoding.md section 3, whose opcode values are the spec's defaults from general
knowledge (decision D2, log 1): the worked encoding of section 5 and one word of each family. -/
def Obligations.WrittenOutWordsDecode : Prop :=
  decode [0x82, 0x00, 0x08, 0x47, 0x00, 0x01] = .ok (.ldi 0 8, [0x47, 0x00, 0x01]) ∧
  decode [0x47, 0x00, 0x01] = .ok (.prn 0, [0x01]) ∧ decode [0x01] = .ok (.hlt, []) ∧
  decode [0x84, 0x02, 0x00] = .ok (.st 2 0, []) ∧ decode [0x46, 0x03] = .ok (.pop 3, []) ∧
  decode [0x11] = .ok (.ret, []) ∧ decode [0x56, 0x03] = .ok (.jne 3, []) ∧
  decode [0xA7, 0x00, 0x02] = .ok (.cmp 0 2, []) ∧ decode [0x69, 0x02] = .ok (.not 2, []) ∧
  decode [0x00, 0x01] = .error (.invalidOpcode 0x00) ∧ decode [0x82, 0x00] = .error (.missingByte 2)

/-- 30_encoding.md section 3: the 21 opcode values are pairwise distinct, as the mapping from opcode to handler needs, and with the
default table (decision D2) 235 of the 256 byte values are invalid. -/
def Obligations.OpcodeValuesAreDistinct : Prop :=
  (∀ a b : Op, a.byte = b.byte → a = b) ∧ opcodeRows.length = 21 ∧
  ((List.range 256).filter (fun n => (lookupOp (BitVec.ofNat 8 n)).isNone)).length = 235

/-- 30_encoding.md section 4 (the decoder as a block, derived there): the control signals, obeyed by a datapath that knows no
instruction, do what every instruction's rule does, faults and register-index checks included. -/
def Obligations.DecoderSignalsDriveEveryInstruction : Prop :=
  ∀ (i : Instr) (s : State),
    exec i s = conclude s (datapath i.op.byte (i.operands.getD 0 0) (i.operands.getD 1 0) s)

/-- 44_alu.md section 3 (the ALU as a block, derived there): its result for every operation but `CMP`, its flags one of the three
values, for `CMP` the one of the unsigned comparison, its zero-divisor output, and that `NOT` ignores its second input. What
the outputs carry where the spec gives them no use is the model's choice (log 15) and not stated. -/
def Obligations.AluBlockOutputs : Prop :=
  (∀ (op : AluOp) (a b : Byte),
    (match op with
      | .add => (alu op a b).result = a + b
      | .mul => (alu op a b).result = a * b
      | .and => (alu op a b).result = a &&& b
      | .or => (alu op a b).result = a ||| b
      | .xor => (alu op a b).result = a ^^^ b
      | .shl => (alu op a b).result = a <<< b.toNat
      | .shr => (alu op a b).result = a >>> b.toNat
      | .mod => b ≠ 0 → (alu op a b).result = a.umod b
      | .not => (alu op a b).result = ~~~a
      | .cmp => True) ∧
    (op = .cmp → (alu op a b).flags = if a = b then 0x01 else if b.toNat < a.toNat then 0x02 else 0x04) ∧
    ((alu op a b).flags = 0x01 ∨ (alu op a b).flags = 0x02 ∨ (alu op a b).flags = 0x04) ∧
    ((alu op a b).div0 = true ↔ op = .mod ∧ b = 0)) ∧
  ∀ a b c : Byte, alu .not a b = alu .not a c

/-! ## Host interface -/

/-- 70_reset_and_hazards.md section 1, program load (decision D20): an image of at most 256 bytes fills the cells from address 0,
the rest keep what they held, nothing else changes and memory stays canonical; a longer image is refused. -/
def Obligations.LoadFillsMemoryFromZero : Prop :=
  ∀ (s : State) (image : List Byte), s.mem.wf →
    (image.length ≤ 256 → ∃ t, loadImage image s = some t ∧ t.mem.wf ∧ t = { s with mem := t.mem } ∧
      ∀ a, t.mem.read a = image.getD a (s.mem.read a)) ∧
    (256 < image.length → loadImage image s = none)

/-- 70_reset_and_hazards.md section 1, start: the first cycle of every run fetches the instruction at the front of the image, and
every state of a run from its launch state is legal (10_state.md section 7, derived there). -/
def Obligations.RunsStartAtAddressZeroAndStayLegal : Prop :=
  ∀ (image : List Byte) (s : State), launch image = some s →
    (∀ i rest, decode image = .ok (i, rest) → fetch s = .ok i) ∧ ∀ t, Reaches s t → Legal t

/-- 10_state.md sections 4 and 6 and 60_exceptions.md section 1 (decision D12): the codes, and that the cause and info ports show
the state's cause and info in them, the value in two's complement of 10 bits, which every legal info fits; the other ports
show the registers, the running flag, the program counter and the flags byte. -/
def Obligations.PortsShowTheFaultRecord : Prop :=
  causeCode .none = 0 ∧ causeCode .invalidInstruction = 1 ∧ causeCode .divisionByZero = 2 ∧
  causeCode .addressOutOfBounds = 3 ∧ causeCode .unsupportedOperation = 4 ∧
  spaceCode .mem = 0 ∧ spaceCode .reg = 1 ∧
  ∀ s : State, Legal s → (portsOf s).cause = causeCode s.cause ∧ (portsOf s).infoSpace = spaceCode s.info.space ∧
    (portsOf s).infoValue.toInt = s.info.value ∧ (portsOf s).dbgX = s.regs ∧
    (portsOf s).running = s.running ∧ (portsOf s).dbgPc = s.pc ∧ (portsOf s).dbgFl = s.fl

/-- 10_state.md section 1 (decision D1): a register write stores its integer modulo 256 in that register and no other, and every
register, 5, 6 and 7 among them, is written and read the same way. -/
def Obligations.RegisterWriteKeepsTheLowByte : Prop :=
  ∀ (s : State) (r : RegIdx) (v : Nat),
    (readReg r (writeReg r v s)).toNat = v % 256 ∧
    (∀ k, k ≠ r → readReg k (writeReg r v s) = readReg k s) ∧
    writeReg r v s = { s with regs := (writeReg r v s).regs }
end

