-- ==== Sys2Proof/Laws/Decode.lean ====
section
/-! SUPPORT. The opcode table as a function: distinct bytes, and what a match says. -/

namespace Sys2Proof

/-- The opcode bytes of the rows are pairwise distinct (30_encoding.md R86). -/
theorem opcodeRows_distinct : opcodeRows.Pairwise (fun a b => a.byte ≠ b.byte) := by decide

/-- Every row is found by its own byte. -/
@[simp] theorem lookupOp_byte (o : Op) : lookupOp o.byte = some o := by cases o <;> decide

/-- A byte that is found is the byte of the row found. -/
theorem byte_of_lookupOp {op : Byte} {o : Op} (h : lookupOp op = some o) : op = o.byte := by
  have := List.find?_some h
  exact (by simpa using this : o.byte = op).symm

/-- An instruction is what its operation makes of its own operand bytes. -/
theorem build_operands (i : Instr) : i.op.build (i.operands.getD 0 0) (i.operands.getD 1 0) = i := by
  cases i <;> rfl

/-- The operation an operation's instruction has. -/
@[simp] theorem op_build (o : Op) (b1 b2 : Byte) : (o.build b1 b2).op = o := by cases o <;> rfl

/-- The operand bytes of an instruction are as many as its format says. -/
theorem operands_length (i : Instr) : i.operands.length + 1 = i.op.len := by cases i <;> rfl

/-- Lengths are 1 to 3 (30_encoding.md R80). -/
theorem one_le_len (o : Op) : 1 ≤ o.len := by cases o <;> decide

theorem len_le_three (o : Op) : o.len ≤ 3 := by cases o <;> decide

end Sys2Proof
end

