-- ==== Sys2Proof/Laws/State.lean ====
section
/-! SUPPORT. One lemma per field per update of the state, so that no later proof unfolds a record update. -/

namespace Sys2Proof.Machine

/-! ## writeReg -/

@[simp] theorem writeReg_regs (i : RegIdx) (v : Nat) (s : State) :
    (writeReg i v s).regs = s.regs.set i.val (BitVec.ofNat 8 v) := rfl
@[simp] theorem writeReg_pc (i : RegIdx) (v : Nat) (s : State) :
    (writeReg i v s).pc = s.pc := rfl
@[simp] theorem writeReg_fl (i : RegIdx) (v : Nat) (s : State) :
    (writeReg i v s).fl = s.fl := rfl
@[simp] theorem writeReg_running (i : RegIdx) (v : Nat) (s : State) :
    (writeReg i v s).running = s.running := rfl
@[simp] theorem writeReg_cause (i : RegIdx) (v : Nat) (s : State) :
    (writeReg i v s).cause = s.cause := rfl
@[simp] theorem writeReg_info (i : RegIdx) (v : Nat) (s : State) :
    (writeReg i v s).info = s.info := rfl
@[simp] theorem writeReg_mem (i : RegIdx) (v : Nat) (s : State) :
    (writeReg i v s).mem = s.mem := rfl
@[simp] theorem writeReg_out (i : RegIdx) (v : Nat) (s : State) :
    (writeReg i v s).out = s.out := rfl

/-! ## advance -/

@[simp] theorem advance_regs (n : Nat) (s : State) :
    (advance n s).regs = s.regs := rfl
@[simp] theorem advance_pc (n : Nat) (s : State) :
    (advance n s).pc = BitVec.ofNat 9 (s.pc.toNat + n) := rfl
@[simp] theorem advance_fl (n : Nat) (s : State) :
    (advance n s).fl = s.fl := rfl
@[simp] theorem advance_running (n : Nat) (s : State) :
    (advance n s).running = s.running := rfl
@[simp] theorem advance_cause (n : Nat) (s : State) :
    (advance n s).cause = s.cause := rfl
@[simp] theorem advance_info (n : Nat) (s : State) :
    (advance n s).info = s.info := rfl
@[simp] theorem advance_mem (n : Nat) (s : State) :
    (advance n s).mem = s.mem := rfl
@[simp] theorem advance_out (n : Nat) (s : State) :
    (advance n s).out = s.out := rfl

/-! ## jump -/

@[simp] theorem jump_regs (t : Byte) (s : State) :
    (jump t s).regs = s.regs := rfl
@[simp] theorem jump_pc (t : Byte) (s : State) :
    (jump t s).pc = BitVec.ofNat 9 t.toNat := rfl
@[simp] theorem jump_fl (t : Byte) (s : State) :
    (jump t s).fl = s.fl := rfl
@[simp] theorem jump_running (t : Byte) (s : State) :
    (jump t s).running = s.running := rfl
@[simp] theorem jump_cause (t : Byte) (s : State) :
    (jump t s).cause = s.cause := rfl
@[simp] theorem jump_info (t : Byte) (s : State) :
    (jump t s).info = s.info := rfl
@[simp] theorem jump_mem (t : Byte) (s : State) :
    (jump t s).mem = s.mem := rfl
@[simp] theorem jump_out (t : Byte) (s : State) :
    (jump t s).out = s.out := rfl

/-! ## halt -/

@[simp] theorem halt_regs (s : State) :
    (halt s).regs = s.regs := rfl
@[simp] theorem halt_pc (s : State) :
    (halt s).pc = s.pc := rfl
@[simp] theorem halt_fl (s : State) :
    (halt s).fl = s.fl := rfl
@[simp] theorem halt_running (s : State) :
    (halt s).running = false := rfl
@[simp] theorem halt_cause (s : State) :
    (halt s).cause = s.cause := rfl
@[simp] theorem halt_info (s : State) :
    (halt s).info = s.info := rfl
@[simp] theorem halt_mem (s : State) :
    (halt s).mem = s.mem := rfl
@[simp] theorem halt_out (s : State) :
    (halt s).out = s.out := rfl

/-! ## setFlags -/

@[simp] theorem setFlags_regs (f : Byte) (s : State) :
    (setFlags f s).regs = s.regs := rfl
@[simp] theorem setFlags_pc (f : Byte) (s : State) :
    (setFlags f s).pc = s.pc := rfl
@[simp] theorem setFlags_fl (f : Byte) (s : State) :
    (setFlags f s).fl = f := rfl
@[simp] theorem setFlags_running (f : Byte) (s : State) :
    (setFlags f s).running = s.running := rfl
@[simp] theorem setFlags_cause (f : Byte) (s : State) :
    (setFlags f s).cause = s.cause := rfl
@[simp] theorem setFlags_info (f : Byte) (s : State) :
    (setFlags f s).info = s.info := rfl
@[simp] theorem setFlags_mem (f : Byte) (s : State) :
    (setFlags f s).mem = s.mem := rfl
@[simp] theorem setFlags_out (f : Byte) (s : State) :
    (setFlags f s).out = s.out := rfl

/-! ## emit -/

@[simp] theorem emit_regs (v : Byte) (s : State) :
    (emit v s).regs = s.regs := rfl
@[simp] theorem emit_pc (v : Byte) (s : State) :
    (emit v s).pc = s.pc := rfl
@[simp] theorem emit_fl (v : Byte) (s : State) :
    (emit v s).fl = s.fl := rfl
@[simp] theorem emit_running (v : Byte) (s : State) :
    (emit v s).running = s.running := rfl
@[simp] theorem emit_cause (v : Byte) (s : State) :
    (emit v s).cause = s.cause := rfl
@[simp] theorem emit_info (v : Byte) (s : State) :
    (emit v s).info = s.info := rfl
@[simp] theorem emit_mem (v : Byte) (s : State) :
    (emit v s).mem = s.mem := rfl
@[simp] theorem emit_out (v : Byte) (s : State) :
    (emit v s).out = s.out ++ [v] := rfl

/-! ## storeByte -/

@[simp] theorem storeByte_regs (a : Nat) (v : Byte) (s : State) :
    (storeByte a v s).regs = s.regs := rfl
@[simp] theorem storeByte_pc (a : Nat) (v : Byte) (s : State) :
    (storeByte a v s).pc = s.pc := rfl
@[simp] theorem storeByte_fl (a : Nat) (v : Byte) (s : State) :
    (storeByte a v s).fl = s.fl := rfl
@[simp] theorem storeByte_running (a : Nat) (v : Byte) (s : State) :
    (storeByte a v s).running = s.running := rfl
@[simp] theorem storeByte_cause (a : Nat) (v : Byte) (s : State) :
    (storeByte a v s).cause = s.cause := rfl
@[simp] theorem storeByte_info (a : Nat) (v : Byte) (s : State) :
    (storeByte a v s).info = s.info := rfl
@[simp] theorem storeByte_mem (a : Nat) (v : Byte) (s : State) :
    (storeByte a v s).mem = s.mem.write a v := rfl
@[simp] theorem storeByte_out (a : Nat) (v : Byte) (s : State) :
    (storeByte a v s).out = s.out := rfl

/-! ## raise -/

@[simp] theorem raise_regs (t : Trap) (s : State) :
    (raise t s).regs = s.regs := rfl
@[simp] theorem raise_pc (t : Trap) (s : State) :
    (raise t s).pc = s.pc := rfl
@[simp] theorem raise_fl (t : Trap) (s : State) :
    (raise t s).fl = s.fl := rfl
@[simp] theorem raise_running (t : Trap) (s : State) :
    (raise t s).running = false := rfl
@[simp] theorem raise_cause (t : Trap) (s : State) :
    (raise t s).cause = t.cause := rfl
@[simp] theorem raise_info (t : Trap) (s : State) :
    (raise t s).info = t.info := rfl
@[simp] theorem raise_mem (t : Trap) (s : State) :
    (raise t s).mem = s.mem := rfl
@[simp] theorem raise_out (t : Trap) (s : State) :
    (raise t s).out = s.out := rfl

/-! ## What a register and the program counter read after an update -/

@[simp] theorem readReg_writeReg (i k : RegIdx) (v : Nat) (s : State) :
    readReg k (writeReg i v s) = if k = i then BitVec.ofNat 8 v else readReg k s := by
  unfold readReg writeReg
  by_cases h : k = i
  · subst h; simp
  · have hv : i.val ≠ k.val := fun e => h (Fin.ext e.symm)
    simp [h, hv]

theorem readReg_congr {s t : State} (h : t.regs = s.regs) (k : RegIdx) : readReg k t = readReg k s := by
  unfold readReg; simp [h]

@[simp] theorem readReg_advance (k : RegIdx) (n : Nat) (s : State) : readReg k (advance n s) = readReg k s := rfl
@[simp] theorem readReg_jump (k : RegIdx) (t : Byte) (s : State) : readReg k (jump t s) = readReg k s := rfl
@[simp] theorem readReg_halt (k : RegIdx) (s : State) : readReg k (halt s) = readReg k s := rfl
@[simp] theorem readReg_setFlags (k : RegIdx) (f : Byte) (s : State) : readReg k (setFlags f s) = readReg k s := rfl
@[simp] theorem readReg_emit (k : RegIdx) (v : Byte) (s : State) : readReg k (emit v s) = readReg k s := rfl
@[simp] theorem readReg_storeByte (k : RegIdx) (a : Nat) (v : Byte) (s : State) :
    readReg k (storeByte a v s) = readReg k s := rfl
@[simp] theorem readReg_raise (k : RegIdx) (t : Trap) (s : State) : readReg k (raise t s) = readReg k s := rfl

/-- Sequential advance does not wrap where the instruction's bytes lie in memory (40_dispatch.md R115). -/
theorem advance_pc_toNat (n : Nat) (s : State) (h : s.pc.toNat + n < 512) :
    (advance n s).pc.toNat = s.pc.toNat + n := by
  simp [BitVec.toNat_ofNat, Nat.mod_eq_of_lt h]

/-- A byte is far below the range of the program counter, so a redirected program counter is its 8-bit target. -/
@[simp] theorem byte_lt_512 (t : Byte) : t.toNat < 512 := Nat.lt_trans t.isLt (by decide)

/-- A redirected program counter is the 8-bit target (10_state.md R24). -/
theorem jump_pc_toNat (t : Byte) (s : State) : (jump t s).pc.toNat = t.toNat := by simp

end Sys2Proof.Machine
end

