-- ==== Sys2Proof/Laws/Memory.lean ====
section
/-! SUPPORT. Memory: what a cell reads after a write, and that every memory operation keeps the canonical form. -/

namespace Sys2Proof.Machine

/-- Every entry's address is above `a`. -/
abbrev Memory.above (a : Nat) (m : Memory) : Prop := ∀ c ∈ m, a < c.1

theorem Memory.wf_nil : Memory.wf [] := by simp [Memory.wf]

theorem Memory.wf_cons {b : Nat} {w : Byte} {m : Memory} :
    Memory.wf ((b, w) :: m) ↔ Memory.above b m ∧ b ≤ 255 ∧ w ≠ Config.memReset ∧ Memory.wf m := by
  simp only [Memory.wf, Memory.above, List.pairwise_cons, List.mem_cons, forall_eq_or_imp]
  tauto

/-- A cell below every entry is not listed. -/
theorem Memory.read_of_above {a : Nat} {m : Memory} (h : Memory.above a m) : m.read a = Config.memReset := by
  induction m with
  | nil => rfl
  | cons c m ih =>
    obtain ⟨b, w⟩ := c
    have hb : a < b := h (b, w) (by simp)
    have hm : Memory.above a m := fun c hc => h c (by simp [hc])
    simp [Memory.read, Nat.ne_of_lt hb, ih hm]

theorem Memory.read_put {a : Nat} {m : Memory} (v : Byte) (h : Memory.above a m) (b : Nat) :
    (Memory.put a v m).read b = if b = a then v else m.read b := by
  unfold Memory.put
  split
  · next hv =>
    split
    · next e => subst e; rw [hv]; exact Memory.read_of_above h
    · rfl
  · simp [Memory.read]

/-- A read returns the last byte written to its address, and every other cell is left alone (20_memory.md R50). -/
theorem Memory.read_write {m : Memory} (hm : m.wf) (a : Nat) (v : Byte) (b : Nat) :
    (m.write a v).read b = if b = a then v else m.read b := by
  induction m with
  | nil => exact Memory.read_put v (by simp) b
  | cons c m ih =>
    obtain ⟨d, w⟩ := c
    obtain ⟨hab, -, -, hm'⟩ := Memory.wf_cons.mp hm
    simp only [Memory.write]
    split
    · next hlt =>
      apply Memory.read_put v
      intro c hc
      rcases List.mem_cons.mp hc with rfl | hc
      · exact hlt
      · exact Nat.lt_trans hlt (hab c hc)
    · split
      · next e =>
        subst e
        rw [Memory.read_put v hab]
        by_cases hb : b = a <;> simp [Memory.read, hb]
      · next hne =>
        simp only [Memory.read, ih hm']
        by_cases hb : b = d
        · subst hb; simp [Ne.symm hne]
        · simp [hb]

theorem Memory.wf_put {a : Nat} {m : Memory} (v : Byte) (ha : a ≤ 255) (h : Memory.above a m) (hm : m.wf) :
    (Memory.put a v m).wf := by
  unfold Memory.put
  split
  · exact hm
  · next hv => exact Memory.wf_cons.mpr ⟨h, ha, hv, hm⟩

theorem Memory.above_write {b : Nat} {m : Memory} (h : Memory.above b m) {a : Nat} (hab : b < a) (v : Byte) :
    Memory.above b (m.write a v) := by
  induction m with
  | nil =>
    intro c hc
    simp only [Memory.write, Memory.put] at hc
    split at hc <;> simp_all
  | cons d m ih =>
    obtain ⟨e, w⟩ := d
    have he : b < e := h (e, w) (by simp)
    have hm : Memory.above b m := fun c hc => h c (by simp [hc])
    intro c hc
    simp only [Memory.write, Memory.put] at hc
    split at hc
    · split at hc
      · exact h c hc
      · rcases List.mem_cons.mp hc with rfl | hc
        · exact hab
        · exact h c hc
    · split at hc
      · split at hc
        · exact hm c hc
        · rcases List.mem_cons.mp hc with rfl | hc
          · exact hab
          · exact hm c hc
      · rcases List.mem_cons.mp hc with rfl | hc
        · exact he
        · exact ih hm c hc

/-- A write within the address space keeps the canonical form. -/
theorem Memory.wf_write {m : Memory} (hm : m.wf) {a : Nat} (ha : a ≤ 255) (v : Byte) : (m.write a v).wf := by
  induction m with
  | nil => exact Memory.wf_put v ha (by simp) Memory.wf_nil
  | cons c m ih =>
    obtain ⟨b, w⟩ := c
    obtain ⟨hab, hb, hw, hm'⟩ := Memory.wf_cons.mp hm
    simp only [Memory.write]
    split
    · next hlt =>
      refine Memory.wf_put v ha (fun c hc => ?_) hm
      rcases List.mem_cons.mp hc with rfl | hc
      · exact hlt
      · exact Nat.lt_trans hlt (hab c hc)
    · next hnlt =>
      split
      · next e => subst e; exact Memory.wf_put v ha hab hm'
      · next hne =>
        exact Memory.wf_cons.mpr ⟨Memory.above_write hab (by omega) v, hb, hw, ih hm'⟩

/-- Storing a sequence of bytes keeps the canonical form. -/
theorem Memory.wf_writeBytes {m : Memory} (hm : m.wf) (a : Nat) (vs : List Byte) : (m.writeBytes a vs).wf := by
  induction vs generalizing m a with
  | nil => exact hm
  | cons v vs ih =>
    simp only [Memory.writeBytes]
    split
    · next ha => exact ih (Memory.wf_write hm ha v) (a + 1)
    · exact hm

/-- What a cell reads after a sequence of bytes is stored from `a` up, within the address space. -/
theorem Memory.read_writeBytes {m : Memory} (hm : m.wf) (a : Nat) (vs : List Byte) (b : Nat)
    (h : a + vs.length ≤ 256) :
    (m.writeBytes a vs).read b = if a ≤ b then vs.getD (b - a) (m.read b) else m.read b := by
  induction vs generalizing m a with
  | nil => simp [Memory.writeBytes]
  | cons v vs ih =>
    simp only [List.length_cons] at h
    have ha : a ≤ 255 := by omega
    simp only [Memory.writeBytes, ha, if_true]
    rw [ih (Memory.wf_write hm ha v) (a + 1) (by omega), Memory.read_write hm]
    rcases Nat.lt_trichotomy b a with hb | rfl | hb
    · simp [show ¬ a + 1 ≤ b by omega, show ¬ a ≤ b by omega, show b ≠ a by omega]
    · simp
    · obtain ⟨k, rfl⟩ : ∃ k, b = a + 1 + k := ⟨b - (a + 1), by omega⟩
      simp [show a ≤ a + 1 + k by omega, show a + 1 + k ≠ a by omega,
        show a + 1 + k - a = k + 1 by omega, show a + 1 + k - (a + 1) = k by omega]

/-- The reset memory has the canonical form. -/
theorem reset_mem_wf : State.reset.mem.wf := Memory.wf_nil

/-- `MemRead` in range (20_memory.md R51). -/
@[simp] theorem memRead_nat (a : Nat) (s : State) (h : a ≤ 255) : memRead (a : Int) s = .ok (s.mem.read a) := by
  simp [memRead, show ¬ (255 : Int) < a by omega]

/-- `MemWrite` in range (20_memory.md R51). -/
@[simp] theorem memWrite_nat (a : Nat) (v : Byte) (s : State) (h : a ≤ 255) :
    memWrite (a : Int) v s = .ok (storeByte a v s) := by
  simp [memWrite, show ¬ (255 : Int) < a by omega]

end Sys2Proof.Machine
end

