-- ==== Sys2Proof/Laws/Operands.lean ====
section
/-! SUPPORT. One lemma per shared operation: the checks, the operand forms, the stack primitives, the end of a cycle. -/

namespace Sys2Proof.Machine

open Sys2Proof.Safety

/-! ## Checks in sequence -/

@[simp] theorem ok_bind {α β : Type} (a : α) (f : α → Except Trap β) : (Except.ok a >>= f) = f a := rfl
@[simp] theorem error_bind {α β : Type} (e : Trap) (f : α → Except Trap β) :
    ((Except.error e : Except Trap α) >>= f) = .error e := rfl
@[simp] theorem map_ok {α β : Type} (a : α) (f : α → β) : (f <$> (Except.ok a : Except Trap α)) = .ok (f a) := rfl
@[simp] theorem map_error {α β : Type} (e : Trap) (f : α → β) :
    (f <$> (Except.error e : Except Trap α)) = .error e := rfl
@[simp] theorem pure_ok {α : Type} (a : α) : (pure a : Except Trap α) = .ok a := rfl

@[simp] theorem raiseIf_true (t : Trap) : raiseIf true t = .error t := rfl
@[simp] theorem raiseIf_false (t : Trap) : raiseIf false t = .ok () := rfl

@[simp] theorem conclude_ok (s t : State) : conclude s (.ok t) = .next t := rfl
@[simp] theorem conclude_error (s : State) (e : Trap) : conclude s (.error e) = .next (raise e s) := rfl

/-- A cycle that has begun always answers a next state: the one its checks let through, or its start with a fault taken. -/
theorem conclude_next (s : State) (r : Except Trap State) :
    (∃ t, r = .ok t ∧ conclude s r = .next t) ∨ (∃ e, r = .error e ∧ conclude s r = .next (raise e s)) := by
  cases r with
  | ok t => exact .inl ⟨t, rfl, rfl⟩
  | error e => exact .inr ⟨e, rfl, rfl⟩

/-- Taking an address fault, as R205 writes it. -/
theorem raise_addressOutOfBounds (space : Space) (a : Int) (s : State) :
    raise (addressOutOfBounds space a) s = faulted s .addressOutOfBounds space a := rfl

/-! ## Register operands (30_encoding.md R83, 40_dispatch.md R114) -/

@[simp] theorem regByte_toNat (r : RegIdx) : (regByte r).toNat = r.val := by
  have := r.isLt
  simp only [regByte, BitVec.toNat_ofNat]
  omega

@[simp] theorem regIdx_regByte (r : RegIdx) : regIdx (regByte r) = .ok r := by
  have h : (regByte r).toNat < 8 := by simp [r.isLt]
  unfold regIdx
  rw [dif_pos h]
  congr 1
  exact Fin.ext (regByte_toNat r)

theorem regIdx_bad {b : Byte} (h : 7 < b.toNat) : regIdx b = .error (addressOutOfBounds .reg b.toNat) := by
  unfold regIdx
  rw [dif_neg (by omega)]

/-- An operand byte either is the byte of a register, which it gives, or is above 7 and faults. -/
theorem regIdx_cases (b : Byte) :
    (∃ r : RegIdx, b = regByte r ∧ regIdx b = .ok r) ∨
    (7 < b.toNat ∧ regIdx b = .error (addressOutOfBounds .reg b.toNat)) := by
  by_cases h : b.toNat < 8
  · refine .inl ⟨⟨b.toNat, h⟩, ?_, by unfold regIdx; rw [dif_pos h]⟩
    apply BitVec.eq_of_toNat_eq
    simp
  · exact .inr ⟨by omega, regIdx_bad (by omega)⟩

@[simp] theorem regPair_regByte (ra rb : RegIdx) : regPair (regByte ra) (regByte rb) = .ok (ra, rb) := by
  simp [regPair]

theorem regPair_bad_first {b1 : Byte} (h : 7 < b1.toNat) (b2 : Byte) :
    regPair b1 b2 = .error (addressOutOfBounds .reg b1.toNat) := by
  simp [regPair, regIdx_bad h]

theorem regPair_bad_second (ra : RegIdx) {b2 : Byte} (h : 7 < b2.toNat) :
    regPair (regByte ra) b2 = .error (addressOutOfBounds .reg b2.toNat) := by
  simp [regPair, regIdx_bad h]

/-- The two operand bytes of format RR: both registers, or the first bad one faults. -/
theorem regPair_cases (b1 b2 : Byte) :
    (∃ ra rb : RegIdx, b1 = regByte ra ∧ b2 = regByte rb ∧ regPair b1 b2 = .ok (ra, rb)) ∨
    (∃ b : Byte, 7 < b.toNat ∧ (b = b1 ∨ b = b2) ∧ regPair b1 b2 = .error (addressOutOfBounds .reg b.toNat)) := by
  rcases regIdx_cases b1 with ⟨ra, rfl, -⟩ | ⟨h1, -⟩
  · rcases regIdx_cases b2 with ⟨rb, rfl, -⟩ | ⟨h2, -⟩
    · exact .inl ⟨ra, rb, rfl, rfl, regPair_regByte ra rb⟩
    · exact .inr ⟨b2, h2, .inr rfl, regPair_bad_second ra h2⟩
  · exact .inr ⟨b1, h1, .inl rfl, regPair_bad_first h1 b2⟩

@[simp] theorem regAt_regByte (r : RegIdx) (s : State) : regAt (regByte r) s = readReg r s := by
  have h : (regByte r).toNat < 8 := by simp [r.isLt]
  unfold regAt
  rw [dif_pos h]
  congr 1
  exact Fin.ext (regByte_toNat r)

/-! ## The stack primitives (42_stack.md R140, R141) -/

/-- The stack pointer is register 7 (10_state.md R22). -/
@[simp] theorem config_sp : Config.sp = 7 := rfl

theorem spOf_le (s : State) : spOf s ≤ 255 := by
  have := (readReg 7 s).isLt
  unfold spOf
  omega

/-- `Push` at the bottom of memory faults and changes nothing. -/
theorem push_zero {s : State} (h : spOf s = 0) (v : Byte) : push v s = .error (addressOutOfBounds .mem (-1)) := by
  have h' : (readReg 7 s).toNat = 0 := h
  simp [push, h']

/-- `Push` elsewhere: the stack pointer one lower, the byte stored there. -/
theorem push_pos {s : State} (h : 1 ≤ spOf s) (v : Byte) :
    push v s = .ok (storeByte (spOf s - 1) v (writeReg 7 (spOf s - 1) s)) := by
  have h' : 1 ≤ (readReg Config.sp s).toNat := h
  have hle : (readReg Config.sp s).toNat ≤ 255 := by have := (readReg Config.sp s).isLt; omega
  have e : ((readReg Config.sp s).toNat : Int) - 1 = ((readReg Config.sp s).toNat - 1 : Nat) := by omega
  simp only [push, e, spOf]
  have hneg : ¬ (((readReg Config.sp s).toNat - 1 : Nat) : Int) < 0 := by omega
  simp only [hneg, decide_false, raiseIf_false, ok_bind, Int.toNat_natCast]
  rw [memWrite_nat _ _ _ (by omega)]
  rfl

/-- `Pop` at the top of memory faults and changes nothing. -/
theorem pop_top {s : State} (h : spOf s = 255) : pop s = .error (addressOutOfBounds .mem 256) := by
  have h' : (readReg 7 s).toNat = 255 := h
  simp [pop, h']

/-- `Pop` elsewhere: the byte at the stack pointer, which moves one higher; memory is kept. -/
theorem pop_below {s : State} (h : spOf s ≤ 254) :
    pop s = .ok (s.mem.read (spOf s), writeReg 7 (spOf s + 1) s) := by
  have h' : (readReg Config.sp s).toNat ≤ 254 := h
  have hle : ¬ (255 : Int) < ((readReg Config.sp s).toNat : Int) + 1 := by omega
  simp only [pop, hle, decide_false, raiseIf_false, ok_bind]
  rw [memRead_nat _ _ (by omega)]
  have e : (((readReg Config.sp s).toNat : Int) + 1).toNat = (readReg Config.sp s).toNat + 1 := by omega
  simp only [ok_bind, e, pure_ok]
  rfl

end Sys2Proof.Machine
end

