-- ==== Sys2Proof/Laws/Fetch.lean ====
section
/-! SUPPORT. The fetch window, and what a step does: once for every proof about steps. -/

namespace Sys2Proof.Machine

open Sys2Proof.Safety

theorem bytesFrom_length_le (m : Memory) (a n : Nat) : (bytesFrom m a n).length ≤ n := by
  induction n generalizing a with
  | zero => simp [bytesFrom]
  | succ n ih =>
    simp only [bytesFrom]
    split
    · simpa using ih (a + 1)
    · simp

/-- The window past the end of memory is empty (40_dispatch.md R111). -/
theorem fetchWindow_past {s : State} (h : 255 < s.pc.toNat) : fetchWindow s = [] := by
  simp [fetchWindow, bytesFrom, show ¬ s.pc.toNat ≤ 255 by omega]

/-- At the last cell there is one byte (40_dispatch.md R113). -/
theorem fetchWindow_last {s : State} (h : s.pc.toNat = 255) : fetchWindow s = [s.mem.read 255] := by
  simp [fetchWindow, bytesFrom, h]

/-- At the last cell but one there are two bytes (40_dispatch.md R113). -/
theorem fetchWindow_two {s : State} (h : s.pc.toNat = 254) :
    fetchWindow s = [s.mem.read 254, s.mem.read 255] := by
  simp [fetchWindow, bytesFrom, h]

/-- Elsewhere the window holds three bytes. -/
theorem fetchWindow_three {s : State} (h : s.pc.toNat ≤ 253) :
    fetchWindow s = [s.mem.read s.pc.toNat, s.mem.read (s.pc.toNat + 1), s.mem.read (s.pc.toNat + 2)] := by
  simp [fetchWindow, bytesFrom, show s.pc.toNat ≤ 255 by omega, show s.pc.toNat + 1 ≤ 255 by omega,
    show s.pc.toNat + 1 + 1 ≤ 255 by omega]

/-- The operand bytes a format asks for and the bytes there are: fewer, and the first missing one is reported. -/
theorem decodeOperands_short {o : Op} {rest : List Byte} (h : rest.length + 1 < o.len) :
    decodeOperands o rest = .error (.missingByte (rest.length + 1)) := by
  unfold Op.len at h
  cases hf : o.format <;> rw [hf] at h <;> simp [Format.len] at h <;>
    rcases rest with _ | ⟨b, _ | ⟨c, l⟩⟩ <;> simp at h <;> simp [decodeOperands, hf] <;> omega

/-- Enough bytes, and the operation's instruction is read from them. -/
theorem decodeOperands_enough {o : Op} {b1 b2 : Byte} {rest : List Byte} :
    decodeOperands o (b1 :: b2 :: rest) =
      .ok (o.build b1 b2, (b1 :: b2 :: rest).drop (o.len - 1)) := by
  cases o <;> rfl

/-- A fetched instruction lies within memory (40_dispatch.md R113). -/
theorem fetch_room {s : State} {i : Instr} (hf : fetch s = .ok i) : s.pc.toNat + i.op.len ≤ 256 := by
  by_cases h3 : s.pc.toNat ≤ 253
  · have := len_le_three i.op; omega
  unfold fetch at hf
  split at hf
  · next j rest hd =>
    cases hf
    rcases (show s.pc.toNat = 254 ∨ s.pc.toNat = 255 ∨ 255 < s.pc.toNat by omega) with h | h | h
    · rw [fetchWindow_two h] at hd
      simp only [decode] at hd
      split at hd
      · cases hd
      · next o _ =>
        by_cases hl : 2 < o.len
        · rw [decodeOperands_short (by simpa using hl)] at hd; cases hd
        · cases hfm : o.format <;> simp [decodeOperands, hfm] at hd
          all_goals
            obtain ⟨rfl, -⟩ := hd
            simp only [op_build]
            omega
    · rw [fetchWindow_last h] at hd
      simp only [decode] at hd
      split at hd
      · cases hd
      · next o _ =>
        by_cases hl : 1 < o.len
        · rw [decodeOperands_short (by simpa using hl)] at hd; cases hd
        · cases hfm : o.format <;> simp [decodeOperands, hfm] at hd
          obtain ⟨rfl, -⟩ := hd
          simp only [op_build]
          omega
    · rw [fetchWindow_past h] at hd
      cases hd
  · cases hf

/-- A running state whose fetch gives an instruction steps by executing it. -/
theorem step_of_fetch {s : State} {i : Instr} (hr : s.running = true) (hf : fetch s = .ok i) :
    step s = exec i s := by simp [step, hr, hf]

/-- A running state whose fetch faults steps by taking that fault. -/
theorem step_of_fetch_error {s : State} {e : Trap} (hr : s.running = true) (hf : fetch s = .error e) :
    step s = .next (raise e s) := by simp [step, hr, hf]

/-- A step exists only while running, and is the execution of the fetched instruction or the fault of the fetch. -/
theorem step_cases {s t : State} (h : step s = .next t) :
    s.running = true ∧
    ((∃ i, fetch s = .ok i ∧ exec i s = .next t) ∨ (∃ e, fetch s = .error e ∧ t = raise e s)) := by
  unfold step at h
  split at h
  · next hr =>
    refine ⟨hr, ?_⟩
    split at h
    · next i hi => exact .inl ⟨i, hi, h⟩
    · next e he =>
      refine .inr ⟨e, he, ?_⟩
      simpa using h.symm
  · cases h

end Sys2Proof.Machine
end

