-- ==== Sys2Proof/Laws/Exec.lean ====
section
/-! SUPPORT. One equation per instruction over operand bytes that name registers: the state its meaning leaves, in the named
operations. Proofs about runs cite these and do not unfold a meaning. -/

namespace Sys2Proof.Machine

open Sys2Proof.Safety

theorem exec_hlt (s : State) : exec .hlt s = .next (halt s) := rfl

theorem exec_ldi (r : RegIdx) (imm : Byte) (s : State) :
    exec (.ldi (regByte r) imm) s = .next (advance 3 (writeReg r imm.toNat s)) := by
  simp [exec, execLdi, immediate]

theorem exec_prn (r : RegIdx) (s : State) :
    exec (.prn (regByte r)) s = .next (advance 2 (emit (readReg r s) s)) := by
  simp [exec, execPrn]

theorem exec_st (ra rb : RegIdx) (s : State) :
    exec (.st (regByte ra) (regByte rb)) s =
      .next (advance 3 (storeByte (readReg ra s).toNat (readReg rb s) s)) := by
  have h : (readReg ra s).toNat ≤ 255 := by have := (readReg ra s).isLt; omega
  simp [exec, execSt, h]

theorem exec_push_zero (r : RegIdx) {s : State} (h : spOf s = 0) :
    exec (.push (regByte r)) s = .next (raise (addressOutOfBounds .mem (-1)) s) := by
  simp [exec, execPush, push_zero h]

theorem exec_push_pos (r : RegIdx) {s : State} (h : 1 ≤ spOf s) :
    exec (.push (regByte r)) s =
      .next (advance 2 (storeByte (spOf s - 1) (readReg r s) (writeReg 7 (spOf s - 1) s))) := by
  simp [exec, execPush, push_pos h]

theorem exec_pop_top (r : RegIdx) {s : State} (h : spOf s = 255) :
    exec (.pop (regByte r)) s = .next (raise (addressOutOfBounds .mem 256) s) := by
  simp [exec, execPop, pop_top h]

theorem exec_pop_below (r : RegIdx) {s : State} (h : spOf s ≤ 254) :
    exec (.pop (regByte r)) s =
      .next (advance 2 (writeReg r (s.mem.read (spOf s)).toNat (writeReg 7 (spOf s + 1) s))) := by
  simp [exec, execPop, pop_below h]

theorem exec_call_high (r : RegIdx) {s : State} (h : 254 ≤ s.pc.toNat) :
    exec (.call (regByte r)) s = .next (raise (addressOutOfBounds .mem 256) s) := by
  simp [exec, execCall, show 255 < s.pc.toNat + 2 by omega]

theorem exec_call_zero (r : RegIdx) {s : State} (hpc : s.pc.toNat ≤ 253) (h : spOf s = 0) :
    exec (.call (regByte r)) s = .next (raise (addressOutOfBounds .mem (-1)) s) := by
  simp [exec, execCall, push_zero h, show ¬ 255 < s.pc.toNat + 2 by omega]

theorem exec_call_pos (r : RegIdx) {s : State} (hpc : s.pc.toNat ≤ 253) (h : 1 ≤ spOf s) :
    exec (.call (regByte r)) s =
      .next (jump (readReg r (writeReg 7 (spOf s - 1) s))
        (storeByte (spOf s - 1) (BitVec.ofNat 8 (s.pc.toNat + 2)) (writeReg 7 (spOf s - 1) s))) := by
  simp [exec, execCall, push_pos h, show ¬ 255 < s.pc.toNat + 2 by omega]

theorem exec_ret_top {s : State} (h : spOf s = 255) :
    exec .ret s = .next (raise (addressOutOfBounds .mem 256) s) := by
  simp [exec, execRet, pop_top h]

theorem exec_ret_below {s : State} (h : spOf s ≤ 254) :
    exec .ret s = .next (jump (s.mem.read (spOf s)) (writeReg 7 (spOf s + 1) s)) := by
  simp [exec, execRet, pop_below h]

theorem exec_jmp (r : RegIdx) (s : State) : exec (.jmp (regByte r)) s = .next (jump (readReg r s) s) := by
  simp [exec, execJmp, jumpIf]

theorem exec_jeq (r : RegIdx) (s : State) :
    exec (.jeq (regByte r)) s = .next (if flagE s then jump (readReg r s) s else advance 2 s) := by
  simp [exec, execJeq, jumpIf]

theorem exec_jne (r : RegIdx) (s : State) :
    exec (.jne (regByte r)) s = .next (if flagE s then advance 2 s else jump (readReg r s) s) := by
  cases h : flagE s <;> simp [exec, execJne, jumpIf, h]

theorem exec_add (ra rb : RegIdx) (s : State) :
    exec (.add (regByte ra) (regByte rb)) s =
      .next (advance 3 (writeReg ra (addExact (readReg ra s) (readReg rb s)) s)) := by
  simp [exec, execAdd, aluRR]

theorem exec_mul (ra rb : RegIdx) (s : State) :
    exec (.mul (regByte ra) (regByte rb)) s =
      .next (advance 3 (writeReg ra (mulExact (readReg ra s) (readReg rb s)) s)) := by
  simp [exec, execMul, aluRR]

theorem exec_and (ra rb : RegIdx) (s : State) :
    exec (.and (regByte ra) (regByte rb)) s =
      .next (advance 3 (writeReg ra (andExact (readReg ra s) (readReg rb s)) s)) := by
  simp [exec, execAnd, aluRR]

theorem exec_or (ra rb : RegIdx) (s : State) :
    exec (.or (regByte ra) (regByte rb)) s =
      .next (advance 3 (writeReg ra (orExact (readReg ra s) (readReg rb s)) s)) := by
  simp [exec, execOr, aluRR]

theorem exec_xor (ra rb : RegIdx) (s : State) :
    exec (.xor (regByte ra) (regByte rb)) s =
      .next (advance 3 (writeReg ra (xorExact (readReg ra s) (readReg rb s)) s)) := by
  simp [exec, execXor, aluRR]

theorem exec_shl (ra rb : RegIdx) (s : State) :
    exec (.shl (regByte ra) (regByte rb)) s =
      .next (advance 3 (writeReg ra (shlExact (readReg ra s) (readReg rb s)) s)) := by
  simp [exec, execShl, aluRR]

theorem exec_shr (ra rb : RegIdx) (s : State) :
    exec (.shr (regByte ra) (regByte rb)) s =
      .next (advance 3 (writeReg ra (shrExact (readReg ra s) (readReg rb s)) s)) := by
  simp [exec, execShr, aluRR]

theorem exec_mod_zero (ra rb : RegIdx) {s : State} (h : readReg rb s = 0) :
    exec (.mod (regByte ra) (regByte rb)) s = .next (raise divisionByZero s) := by
  simp [exec, execMod, h]

theorem exec_mod_pos (ra rb : RegIdx) {s : State} (h : readReg rb s ≠ 0) :
    exec (.mod (regByte ra) (regByte rb)) s =
      .next (advance 3 (writeReg ra (modExact (readReg ra s) (readReg rb s)) s)) := by
  simp [exec, execMod, aluRR, show ¬ readReg rb s = 0#8 from h]

theorem exec_not (ra : RegIdx) (s : State) :
    exec (.not (regByte ra)) s = .next (advance 2 (writeReg ra (notExact (readReg ra s)) s)) := by
  simp [exec, execNot]

theorem exec_cmp (ra rb : RegIdx) (s : State) :
    exec (.cmp (regByte ra) (regByte rb)) s =
      .next (advance 3 (setFlags (compareFlags (readReg ra s) (readReg rb s)) s)) := by
  simp [exec, execCmp]

/-! ## The flags a compare writes (44_alu.md R180) -/

/-- One of the three values, never 0. -/
theorem compareFlags_cases (a b : Byte) :
    compareFlags a b = 0x01 ∨ compareFlags a b = 0x02 ∨ compareFlags a b = 0x04 := by
  unfold compareFlags
  split
  · exact .inl rfl
  · split
    · exact .inr (.inl rfl)
    · exact .inr (.inr rfl)

/-! ## The ALU block's second input and flags (44_alu.md R183) -/

theorem aluSecond_of_ne_not {op : AluOp} (h : op ≠ .not) (a b : Byte) : aluSecond op a b = b := if_neg h
@[simp] theorem aluSecond_not (a b : Byte) : aluSecond .not a b = a := rfl
@[simp] theorem alu_cmp_flags (a b : Byte) : (alu .cmp a b).flags = compareFlags a b := rfl

/-- Case analysis on an instruction for claims about `exec`: a register operand byte above 7 faults in every state, else every
register operand byte names a register. -/
theorem exec_elim {P : Instr → Prop}
    (bad : ∀ (i : Instr) (b : Byte), b ∈ i.regBytes → 7 < b.toNat →
      (∀ s, exec i s = .next (raise (addressOutOfBounds .reg b.toNat) s)) → P i)
    (hlt : P .hlt) (ldi : ∀ r imm, P (.ldi (regByte r) imm)) (ret : P .ret)
    (prn : ∀ r, P (.prn (regByte r)))
    (push : ∀ r, P (.push (regByte r)))
    (pop : ∀ r, P (.pop (regByte r)))
    (call : ∀ r, P (.call (regByte r)))
    (jmp : ∀ r, P (.jmp (regByte r)))
    (jeq : ∀ r, P (.jeq (regByte r)))
    (jne : ∀ r, P (.jne (regByte r)))
    (not : ∀ r, P (.not (regByte r)))
    (st : ∀ ra rb, P (.st (regByte ra) (regByte rb)))
    (add : ∀ ra rb, P (.add (regByte ra) (regByte rb)))
    (mul : ∀ ra rb, P (.mul (regByte ra) (regByte rb)))
    (and : ∀ ra rb, P (.and (regByte ra) (regByte rb)))
    (or : ∀ ra rb, P (.or (regByte ra) (regByte rb)))
    (xor : ∀ ra rb, P (.xor (regByte ra) (regByte rb)))
    (shl : ∀ ra rb, P (.shl (regByte ra) (regByte rb)))
    (shr : ∀ ra rb, P (.shr (regByte ra) (regByte rb)))
    (mod : ∀ ra rb, P (.mod (regByte ra) (regByte rb)))
    (cmp : ∀ ra rb, P (.cmp (regByte ra) (regByte rb))) :
    ∀ i, P i := by
  have one : ∀ (mk : Byte → Instr) (body : Byte → State → Except Trap State),
      (∀ b s, exec (mk b) s = conclude s (body b s)) → (∀ b s e, regIdx b = .error e → body b s = .error e) →
      (∀ b, b ∈ (mk b).regBytes) → (∀ r, P (mk (regByte r))) → ∀ b, P (mk b) := by
    intro mk body hx he hm hP b
    rcases regIdx_cases b with ⟨r, rfl, -⟩ | ⟨hb, h⟩
    · exact hP r
    · exact bad _ b (hm b) hb fun s => by rw [hx, he _ _ _ h]; rfl
  have two : ∀ (mk : Byte → Byte → Instr) (body : Byte → Byte → State → Except Trap State),
      (∀ b c s, exec (mk b c) s = conclude s (body b c s)) →
      (∀ b c s e, regPair b c = .error e → body b c s = .error e) →
      (∀ b c, (mk b c).regBytes = [b, c]) → (∀ ra rb, P (mk (regByte ra) (regByte rb))) → ∀ b c, P (mk b c) := by
    intro mk body hx he hm hP b c
    rcases regPair_cases b c with ⟨ra, rb, rfl, rfl, -⟩ | ⟨d, hd, hbc, h⟩
    · exact hP ra rb
    · exact bad _ d (by rw [hm]; simpa using hbc) hd fun s => by rw [hx, he _ _ _ _ h]; rfl
  intro i
  cases i with
  | hlt => exact hlt
  | ret => exact ret
  | ldi r imm =>
    exact one (fun b => .ldi b imm) _ (fun _ _ => rfl) (by intro b s e h; simp [h])
      (by intro b; simp [Instr.regBytes]) (fun r => ldi r imm) r
  | prn r =>
    exact one .prn _ (fun _ _ => rfl) (by intro b s e h; simp [h])
      (by intro b; simp [Instr.regBytes]) prn r
  | push r =>
    exact one .push _ (fun _ _ => rfl) (by intro b s e h; simp [h])
      (by intro b; simp [Instr.regBytes]) push r
  | pop r =>
    exact one .pop _ (fun _ _ => rfl) (by intro b s e h; simp [h])
      (by intro b; simp [Instr.regBytes]) pop r
  | call r =>
    exact one .call _ (fun _ _ => rfl) (by intro b s e h; simp [h])
      (by intro b; simp [Instr.regBytes]) call r
  | jmp r =>
    exact one .jmp _ (fun _ _ => rfl) (by intro b s e h; simp [jumpIf, h])
      (by intro b; simp [Instr.regBytes]) jmp r
  | jeq r =>
    exact one .jeq _ (fun _ _ => rfl) (by intro b s e h; simp [jumpIf, h])
      (by intro b; simp [Instr.regBytes]) jeq r
  | jne r =>
    exact one .jne _ (fun _ _ => rfl) (by intro b s e h; simp [jumpIf, h])
      (by intro b; simp [Instr.regBytes]) jne r
  | not r =>
    exact one .not _ (fun _ _ => rfl) (by intro b s e h; simp [h])
      (by intro b; simp [Instr.regBytes]) not r
  | st ra rb =>
    exact two .st _ (fun _ _ _ => rfl) (by intro b c s e h; simp [h])
      (fun _ _ => rfl) st ra rb
  | add ra rb =>
    exact two .add _ (fun _ _ _ => rfl) (by intro b c s e h; simp [aluRR, h])
      (fun _ _ => rfl) add ra rb
  | mul ra rb =>
    exact two .mul _ (fun _ _ _ => rfl) (by intro b c s e h; simp [aluRR, h])
      (fun _ _ => rfl) mul ra rb
  | and ra rb =>
    exact two .and _ (fun _ _ _ => rfl) (by intro b c s e h; simp [aluRR, h])
      (fun _ _ => rfl) and ra rb
  | or ra rb =>
    exact two .or _ (fun _ _ _ => rfl) (by intro b c s e h; simp [aluRR, h])
      (fun _ _ => rfl) or ra rb
  | xor ra rb =>
    exact two .xor _ (fun _ _ _ => rfl) (by intro b c s e h; simp [aluRR, h])
      (fun _ _ => rfl) xor ra rb
  | shl ra rb =>
    exact two .shl _ (fun _ _ _ => rfl) (by intro b c s e h; simp [aluRR, h])
      (fun _ _ => rfl) shl ra rb
  | shr ra rb =>
    exact two .shr _ (fun _ _ _ => rfl) (by intro b c s e h; simp [aluRR, h])
      (fun _ _ => rfl) shr ra rb
  | mod ra rb =>
    exact two .mod _ (fun _ _ _ => rfl) (by intro b c s e h; simp [h])
      (fun _ _ => rfl) mod ra rb
  | cmp ra rb =>
    exact two .cmp _ (fun _ _ _ => rfl) (by intro b c s e h; simp [h])
      (fun _ _ => rfl) cmp ra rb

/-! ## What an execution can do, said once -/

/-- The faults an execution can raise (60_exceptions.md R203 without the fetch sites, R202). -/
inductive ExecTrap (s : State) : Instr → Trap → Prop where
  | register (i : Instr) (b : Byte) (hm : b ∈ i.regBytes) (h : 7 < b.toNat) : ExecTrap s i (addressOutOfBounds .reg b.toNat)
  | pushBound (r : RegIdx) (h : spOf s = 0) : ExecTrap s (.push (regByte r)) (addressOutOfBounds .mem (-1))
  | popBound (r : RegIdx) (h : spOf s = 255) : ExecTrap s (.pop (regByte r)) (addressOutOfBounds .mem 256)
  | retBound (h : spOf s = 255) : ExecTrap s .ret (addressOutOfBounds .mem 256)
  | callReturn (r : RegIdx) (h : 254 ≤ s.pc.toNat) : ExecTrap s (.call (regByte r)) (addressOutOfBounds .mem 256)
  | callBound (r : RegIdx) (hpc : s.pc.toNat ≤ 253) (h : spOf s = 0) :
      ExecTrap s (.call (regByte r)) (addressOutOfBounds .mem (-1))
  | divisor (ra rb : RegIdx) (h : readReg rb s = 0) : ExecTrap s (.mod (regByte ra) (regByte rb)) divisionByZero

/-- `Does s i t`: executing `i` in `s` can leave `t`. -/
inductive Does (s : State) : Instr → State → Prop where
  | fault (i : Instr) (e : Trap) (h : ExecTrap s i e) : Does s i (raise e s)
  | hlt : Does s .hlt (halt s)
  | ldi (r : RegIdx) (imm : Byte) : Does s (.ldi (regByte r) imm) (advance 3 (writeReg r imm.toNat s))
  | prn (r : RegIdx) : Does s (.prn (regByte r)) (advance 2 (emit (readReg r s) s))
  | st (ra rb : RegIdx) : Does s (.st (regByte ra) (regByte rb))
      (advance 3 (storeByte (readReg ra s).toNat (readReg rb s) s))
  | push (r : RegIdx) (h : 1 ≤ spOf s) : Does s (.push (regByte r))
      (advance 2 (storeByte (spOf s - 1) (readReg r s) (writeReg 7 (spOf s - 1) s)))
  | pop (r : RegIdx) (h : spOf s ≤ 254) : Does s (.pop (regByte r))
      (advance 2 (writeReg r (s.mem.read (spOf s)).toNat (writeReg 7 (spOf s + 1) s)))
  | call (r : RegIdx) (hpc : s.pc.toNat ≤ 253) (h : 1 ≤ spOf s) : Does s (.call (regByte r))
      (jump (readReg r (writeReg 7 (spOf s - 1) s))
        (storeByte (spOf s - 1) (BitVec.ofNat 8 (s.pc.toNat + 2)) (writeReg 7 (spOf s - 1) s)))
  | ret (h : spOf s ≤ 254) : Does s .ret (jump (s.mem.read (spOf s)) (writeReg 7 (spOf s + 1) s))
  | jmp (r : RegIdx) : Does s (.jmp (regByte r)) (jump (readReg r s) s)
  | jeq (r : RegIdx) : Does s (.jeq (regByte r)) (if flagE s then jump (readReg r s) s else advance 2 s)
  | jne (r : RegIdx) : Does s (.jne (regByte r)) (if flagE s then advance 2 s else jump (readReg r s) s)
  | add (ra rb : RegIdx) : Does s (.add (regByte ra) (regByte rb))
      (advance 3 (writeReg ra (addExact (readReg ra s) (readReg rb s)) s))
  | mul (ra rb : RegIdx) : Does s (.mul (regByte ra) (regByte rb))
      (advance 3 (writeReg ra (mulExact (readReg ra s) (readReg rb s)) s))
  | and (ra rb : RegIdx) : Does s (.and (regByte ra) (regByte rb))
      (advance 3 (writeReg ra (andExact (readReg ra s) (readReg rb s)) s))
  | or (ra rb : RegIdx) : Does s (.or (regByte ra) (regByte rb))
      (advance 3 (writeReg ra (orExact (readReg ra s) (readReg rb s)) s))
  | xor (ra rb : RegIdx) : Does s (.xor (regByte ra) (regByte rb))
      (advance 3 (writeReg ra (xorExact (readReg ra s) (readReg rb s)) s))
  | shl (ra rb : RegIdx) : Does s (.shl (regByte ra) (regByte rb))
      (advance 3 (writeReg ra (shlExact (readReg ra s) (readReg rb s)) s))
  | shr (ra rb : RegIdx) : Does s (.shr (regByte ra) (regByte rb))
      (advance 3 (writeReg ra (shrExact (readReg ra s) (readReg rb s)) s))
  | mod (ra rb : RegIdx) (h : readReg rb s ≠ 0) : Does s (.mod (regByte ra) (regByte rb))
      (advance 3 (writeReg ra (modExact (readReg ra s) (readReg rb s)) s))
  | not (ra : RegIdx) : Does s (.not (regByte ra)) (advance 2 (writeReg ra (notExact (readReg ra s)) s))
  | cmp (ra rb : RegIdx) : Does s (.cmp (regByte ra) (regByte rb))
      (advance 3 (setFlags (compareFlags (readReg ra s) (readReg rb s)) s))

/-- The inversion lemma of `exec`: every instruction answers a next state, and it is one of those above. -/
theorem exec_does (i : Instr) (s : State) : ∃ t, exec i s = .next t ∧ Does s i t := by
  have hsp := spOf_le s
  refine exec_elim (P := fun i => ∃ t, exec i s = .next t ∧ Does s i t)
    (fun i b hm hb hx => ⟨_, hx s, .fault _ _ (.register i b hm hb)⟩) ⟨_, exec_hlt s, .hlt⟩
    (fun r imm => ⟨_, exec_ldi r imm s, .ldi r imm⟩) ?ret
    (fun r => ⟨_, exec_prn r s, .prn r⟩) ?push ?pop ?call
    (fun r => ⟨_, exec_jmp r s, .jmp r⟩) (fun r => ⟨_, exec_jeq r s, .jeq r⟩)
    (fun r => ⟨_, exec_jne r s, .jne r⟩) (fun r => ⟨_, exec_not r s, .not r⟩)
    (fun ra rb => ⟨_, exec_st ra rb s, .st ra rb⟩) (fun ra rb => ⟨_, exec_add ra rb s, .add ra rb⟩)
    (fun ra rb => ⟨_, exec_mul ra rb s, .mul ra rb⟩) (fun ra rb => ⟨_, exec_and ra rb s, .and ra rb⟩)
    (fun ra rb => ⟨_, exec_or ra rb s, .or ra rb⟩) (fun ra rb => ⟨_, exec_xor ra rb s, .xor ra rb⟩)
    (fun ra rb => ⟨_, exec_shl ra rb s, .shl ra rb⟩) (fun ra rb => ⟨_, exec_shr ra rb s, .shr ra rb⟩)
    ?mod (fun ra rb => ⟨_, exec_cmp ra rb s, .cmp ra rb⟩) i
  case ret =>
    rcases Nat.lt_or_ge (spOf s) 255 with h | h
    · exact ⟨_, exec_ret_below (by omega), .ret (by omega)⟩
    · exact ⟨_, exec_ret_top (by omega), .fault _ _ (.retBound (by omega))⟩
  case push =>
    intro r
    rcases Nat.eq_zero_or_pos (spOf s) with h | h
    · exact ⟨_, exec_push_zero r h, .fault _ _ (.pushBound r h)⟩
    · exact ⟨_, exec_push_pos r h, .push r h⟩
  case pop =>
    intro r
    rcases Nat.lt_or_ge (spOf s) 255 with h | h
    · exact ⟨_, exec_pop_below r (by omega), .pop r (by omega)⟩
    · exact ⟨_, exec_pop_top r (by omega), .fault _ _ (.popBound r (by omega))⟩
  case call =>
    intro r
    rcases Nat.lt_or_ge s.pc.toNat 254 with hp | hp
    · rcases Nat.eq_zero_or_pos (spOf s) with h | h
      · exact ⟨_, exec_call_zero r (by omega) h, .fault _ _ (.callBound r (by omega) h)⟩
      · exact ⟨_, exec_call_pos r (by omega) h, .call r (by omega) h⟩
    · exact ⟨_, exec_call_high r hp, .fault _ _ (.callReturn r hp)⟩
  case mod =>
    intro ra rb
    by_cases h : readReg rb s = 0
    · exact ⟨_, exec_mod_zero ra rb h, .fault _ _ (.divisor ra rb h)⟩
    · exact ⟨_, exec_mod_pos ra rb h, .mod ra rb h⟩

/-- An execution that answers `t` did one of the things listed. -/
theorem does_of_exec {i : Instr} {s t : State} (h : exec i s = .next t) : Does s i t := by
  obtain ⟨u, hu, hd⟩ := exec_does i s
  rw [h] at hu
  cases hu
  exact hd

end Sys2Proof.Machine
end

