-- ==== Sys2Proof/Laws/PerInstr.lean ====
section
/-! SUPPORT. Statements for all instructions, one lemma per constructor: the encoding's length and first byte. -/

namespace Sys2Proof.Laws.EncodedForm

/-- The encoding is as long as the opcode's length, which is 1 to 3 bytes, and begins with the opcode byte, which alone
selects the operation (30_encoding.md R80, R82); the register bytes are among the operand bytes (R83). -/
def Statement (i : Instr) : Prop :=
  (encode i).length = i.op.len ∧ 1 ≤ i.op.len ∧ i.op.len ≤ 3 ∧
    (encode i).head? = some i.op.byte ∧ lookupOp i.op.byte = some i.op ∧ i.regBytes <+: i.operands

theorem hlt : Statement (.hlt) := by
  exact ⟨rfl, one_le_len _, len_le_three _, rfl, lookupOp_byte _, by simp [Instr.regBytes, Instr.operands]⟩

theorem ldi (r imm : Byte) : Statement (.ldi r imm) := by
  exact ⟨rfl, one_le_len _, len_le_three _, rfl, lookupOp_byte _, by simp [Instr.regBytes, Instr.operands]⟩

theorem prn (r : Byte) : Statement (.prn r) := by
  exact ⟨rfl, one_le_len _, len_le_three _, rfl, lookupOp_byte _, by simp [Instr.regBytes, Instr.operands]⟩

theorem st (ra rb : Byte) : Statement (.st ra rb) := by
  exact ⟨rfl, one_le_len _, len_le_three _, rfl, lookupOp_byte _, by simp [Instr.regBytes, Instr.operands]⟩

theorem push (r : Byte) : Statement (.push r) := by
  exact ⟨rfl, one_le_len _, len_le_three _, rfl, lookupOp_byte _, by simp [Instr.regBytes, Instr.operands]⟩

theorem pop (r : Byte) : Statement (.pop r) := by
  exact ⟨rfl, one_le_len _, len_le_three _, rfl, lookupOp_byte _, by simp [Instr.regBytes, Instr.operands]⟩

theorem call (r : Byte) : Statement (.call r) := by
  exact ⟨rfl, one_le_len _, len_le_three _, rfl, lookupOp_byte _, by simp [Instr.regBytes, Instr.operands]⟩

theorem ret : Statement (.ret) := by
  exact ⟨rfl, one_le_len _, len_le_three _, rfl, lookupOp_byte _, by simp [Instr.regBytes, Instr.operands]⟩

theorem jmp (r : Byte) : Statement (.jmp r) := by
  exact ⟨rfl, one_le_len _, len_le_three _, rfl, lookupOp_byte _, by simp [Instr.regBytes, Instr.operands]⟩

theorem jeq (r : Byte) : Statement (.jeq r) := by
  exact ⟨rfl, one_le_len _, len_le_three _, rfl, lookupOp_byte _, by simp [Instr.regBytes, Instr.operands]⟩

theorem jne (r : Byte) : Statement (.jne r) := by
  exact ⟨rfl, one_le_len _, len_le_three _, rfl, lookupOp_byte _, by simp [Instr.regBytes, Instr.operands]⟩

theorem add (ra rb : Byte) : Statement (.add ra rb) := by
  exact ⟨rfl, one_le_len _, len_le_three _, rfl, lookupOp_byte _, by simp [Instr.regBytes, Instr.operands]⟩

theorem mul (ra rb : Byte) : Statement (.mul ra rb) := by
  exact ⟨rfl, one_le_len _, len_le_three _, rfl, lookupOp_byte _, by simp [Instr.regBytes, Instr.operands]⟩

theorem and (ra rb : Byte) : Statement (.and ra rb) := by
  exact ⟨rfl, one_le_len _, len_le_three _, rfl, lookupOp_byte _, by simp [Instr.regBytes, Instr.operands]⟩

theorem or (ra rb : Byte) : Statement (.or ra rb) := by
  exact ⟨rfl, one_le_len _, len_le_three _, rfl, lookupOp_byte _, by simp [Instr.regBytes, Instr.operands]⟩

theorem xor (ra rb : Byte) : Statement (.xor ra rb) := by
  exact ⟨rfl, one_le_len _, len_le_three _, rfl, lookupOp_byte _, by simp [Instr.regBytes, Instr.operands]⟩

theorem shl (ra rb : Byte) : Statement (.shl ra rb) := by
  exact ⟨rfl, one_le_len _, len_le_three _, rfl, lookupOp_byte _, by simp [Instr.regBytes, Instr.operands]⟩

theorem shr (ra rb : Byte) : Statement (.shr ra rb) := by
  exact ⟨rfl, one_le_len _, len_le_three _, rfl, lookupOp_byte _, by simp [Instr.regBytes, Instr.operands]⟩

theorem mod (ra rb : Byte) : Statement (.mod ra rb) := by
  exact ⟨rfl, one_le_len _, len_le_three _, rfl, lookupOp_byte _, by simp [Instr.regBytes, Instr.operands]⟩

theorem not (ra : Byte) : Statement (.not ra) := by
  exact ⟨rfl, one_le_len _, len_le_three _, rfl, lookupOp_byte _, by simp [Instr.regBytes, Instr.operands]⟩

theorem cmp (ra rb : Byte) : Statement (.cmp ra rb) := by
  exact ⟨rfl, one_le_len _, len_le_three _, rfl, lookupOp_byte _, by simp [Instr.regBytes, Instr.operands]⟩

end Sys2Proof.Laws.EncodedForm
end

