-- ==== Sys2Proof/Tests/Slice0.lean ====
section
/-! SUPPORT. The model's own tests. Expected results come from spec/95_test_vectors.md (the vector's name stands before each
test), or are written out by hand from the encodings of 30_encoding.md. The last part holds, for every statement with
hypotheses, a state and operands that meet them, at the edges of their ranges. -/

namespace Sys2Proof.Tests

open Sys2Proof.Machine Sys2Proof.Safety

/-! ## Small states -/

/-- A state as the vectors of 95_test_vectors.md begin: reset but for `pc`, bytes at `pc`, some registers and `FL`. -/
def mk (pc : Nat) (bytes : List Byte) (regs : List (RegIdx × Nat) := []) (fl : Byte := 0x00) : State :=
  let s := placeAtPc bytes { State.reset with pc := BitVec.ofNat 9 pc, fl := fl }
  regs.foldl (fun s r => writeReg r.1 r.2 s) s

/-- One step and a look at the state it gives. -/
def look {α : Type} (view : State → α) (s : State) : Option α :=
  match step s with
  | .next t => some (view t)
  | _ => none

/-- The state one step gives; the state itself where there is none. -/
def after (s : State) : State := (look id s).getD s

/-- The fault record of a state. -/
def record (s : State) : Bool × Cause × Info := (s.running, s.cause, s.info)

/-! ## Well-formed instructions: an ill-formed term for each check -/

theorem test_wf_r : (Instr.prn 7).wellFormed = true ∧ (Instr.prn 8).wellFormed = false := by decide
theorem test_wf_ri : (Instr.ldi 7 255).wellFormed = true ∧ (Instr.ldi 8 0).wellFormed = false := by decide
theorem test_wf_rr_first : (Instr.st 7 0).wellFormed = true ∧ (Instr.st 8 0).wellFormed = false := by decide
theorem test_wf_rr_second : (Instr.cmp 0 7).wellFormed = true ∧ (Instr.cmp 0 8).wellFormed = false := by decide
theorem test_wf_first_reported : (Instr.mod 8 9).badRegByte = some 8 := by decide

/-! ## Decoding: one word of each row, written out from 30_encoding.md R81 and R85 -/

theorem test_decode_hlt : decode [0b00000001] = .ok (.hlt, []) := by decide
theorem test_decode_ldi : decode [0b10000010, 0b00000011, 0b11111111] = .ok (.ldi 3 0xFF, []) := by decide
theorem test_decode_prn : decode [0b01000111, 0b00000100] = .ok (.prn 4, []) := by decide
theorem test_decode_st : decode [0b10000100, 0b00000010, 0b00000101] = .ok (.st 2 5, []) := by decide
theorem test_decode_push : decode [0b01000101, 0b00000110] = .ok (.push 6, []) := by decide
theorem test_decode_pop : decode [0b01000110, 0b00000001] = .ok (.pop 1, []) := by decide
theorem test_decode_call : decode [0b01010000, 0b00000111] = .ok (.call 7, []) := by decide
theorem test_decode_ret : decode [0b00010001] = .ok (.ret, []) := by decide
theorem test_decode_jmp : decode [0b01010100, 0b00000011] = .ok (.jmp 3, []) := by decide
theorem test_decode_jeq : decode [0b01010101, 0b00000010] = .ok (.jeq 2, []) := by decide
theorem test_decode_jne : decode [0b01010110, 0b00000011] = .ok (.jne 3, []) := by decide
theorem test_decode_add : decode [0b10100000, 0b00000001, 0b00000010] = .ok (.add 1 2, []) := by decide
theorem test_decode_mul : decode [0b10100010, 0b00000011, 0b00000100] = .ok (.mul 3 4, []) := by decide
theorem test_decode_and : decode [0b10101000, 0b00000101, 0b00000110] = .ok (.and 5 6, []) := by decide
theorem test_decode_or : decode [0b10101010, 0b00000111, 0b00000000] = .ok (.or 7 0, []) := by decide
theorem test_decode_xor : decode [0b10101011, 0b00000001, 0b00000011] = .ok (.xor 1 3, []) := by decide
theorem test_decode_shl : decode [0b10101100, 0b00000010, 0b00000100] = .ok (.shl 2 4, []) := by decide
theorem test_decode_shr : decode [0b10101101, 0b00000101, 0b00000001] = .ok (.shr 5 1, []) := by decide
theorem test_decode_mod : decode [0b10100100, 0b00000110, 0b00000010] = .ok (.mod 6 2, []) := by decide
theorem test_decode_not : decode [0b01101001, 0b00000010] = .ok (.not 2, []) := by decide
theorem test_decode_cmp : decode [0b10100111, 0b00000000, 0b00000111] = .ok (.cmp 0 7, []) := by decide

/-- VF19: bytes the machine lacks are invalid. -/
theorem test_decode_invalid :
    ([0x00, 0x02, 0x10, 0x48, 0x83, 0xA1, 0xA3, 0xA9, 0x57, 0x65, 0xFF] : List Byte).all
      (fun b => decide (decode [b, 0, 0] = .error (.invalidOpcode b))) = true := by decide
/-- The decoder names the first byte that is not there. -/
theorem test_decode_short :
    decode [] = .error (.missingByte 0) ∧ decode [0x82] = .error (.missingByte 1) ∧
    decode [0x82, 0x00] = .error (.missingByte 2) ∧ decode [0x47] = .error (.missingByte 1) := by decide
/-- 30_encoding.md R93: `LDI R0,8` as a table word, its first byte in bits 7..0. -/
theorem test_table_word : decodeTableWord 24 0x080082 = some (.ldi 0 8) ∧ decodeTableWord 8 0x01 = some .hlt ∧
    decodeTableWord 16 0x0447 = some (.prn 4) ∧ decodeTableWord 8 0x00 = none := by decide
/-- Bits above the table's are zero operand bytes. -/
theorem test_table_word_zeros : decodeTableWord 8 0xFF82 = some (.ldi 0 0) := by decide
/-- A placed word is the first instruction after reset. -/
theorem test_withFetchWord :
    look (fun t => (readReg 0 t, t.pc)) (State.reset.withFetchWord 24 0x080082) = some (8, 3) := by decide

/-! ## One step of each instruction -/

/-- VH2. -/
theorem test_hlt_last_cell : look (fun t => (t.pc, record t)) (mk 0xFF [0x01]) =
    some (0xFF, false, .none, ⟨.mem, 0⟩) := by decide
/-- VH3. -/
theorem test_halted_has_no_step : step (halt State.reset) = .fault .halted := rfl
/-- VD4. -/
theorem test_ldi_sp : look (fun t => (readReg 7 t, t.pc)) (mk 0 [0x82, 0x07, 0x10]) = some (0x10, 3) := by decide
/-- VD6. -/
theorem test_ldi_off_the_end : look (fun t => (readReg 2 t, t.pc)) (mk 0xFD [0x82, 0x02, 0x01]) =
    some (0x01, 256) := by decide
/-- VD9. -/
theorem test_prn_unsigned : look (fun t => (t.out, outText t.out)) (mk 0 [0x47, 0x01] [(1, 0xFF)]) =
    some ([255], ['2', '5', '5', '\n']) := by decide
/-- VD8. -/
theorem test_prn_zero : look (fun t => outText t.out) (mk 0 [0x47, 0x04]) = some ['0', '\n'] := by decide
/-- VD11. -/
theorem test_st : look (fun t => (t.mem.read 0x80, t.pc, t.regs == (mk 0 [] [(2, 0x80), (0, 0x55)]).regs))
    (mk 0x11 [0x84, 0x02, 0x00] [(2, 0x80), (0, 0x55)]) = some (0x55, 0x14, true) := by decide
/-- VD14: a store over its own opcode byte. -/
theorem test_st_self : look (fun t => (t.mem.read 0, t.pc, t.running)) (mk 0 [0x84, 0x00, 0x01] [(1, 0x01)]) =
    some (0x01, 3, true) := by decide
/-- VK3. -/
theorem test_push_sp : look (fun t => (t.mem.read 0xF3, readReg 7 t, t.pc)) (mk 0 [0x45, 0x07]) =
    some (0xF4, 0xF3, 2) := by decide
/-- VF13: no wrap. -/
theorem test_push_fault : look (fun t => (record t, readReg 7 t, t.mem.read 0xFF, t.pc))
    (mk 3 [0x45, 0x00] [(7, 0), (0, 0x77)]) =
    some ((false, .addressOutOfBounds, ⟨.mem, -1⟩), 0, 0, 3) := by decide
/-- VK4. -/
theorem test_pop : look (fun t => (readReg 0 t, readReg 7 t, t.pc, t.mem.read 0xF2))
    (storeByte 0xF2 0x55 (mk 10 [0x46, 0x00] [(7, 0xF2)])) = some (0x55, 0xF3, 12, 0x55) := by decide
/-- 42_stack.md R143: `POP R7` ends with the popped byte. -/
theorem test_pop_sp : look (fun t => readReg 7 t) (storeByte 0xF2 0x55 (mk 0 [0x46, 0x07] [(7, 0xF2)])) =
    some 0x55 := by decide
/-- VK10. -/
theorem test_call_sp : look (fun t => (t.mem.read 0xF3, readReg 7 t, t.pc)) (mk 0 [0x50, 0x07]) =
    some (0x02, 0xF3, 0xF3) := by decide
/-- VF17: the return-address check comes first. -/
theorem test_call_fault : look (fun t => (record t, t.pc)) (mk 0xFE [0x50, 0x01] [(7, 0), (1, 0x20)]) =
    some ((false, .addressOutOfBounds, ⟨.mem, 256⟩), 0xFE) := by decide
/-- VK11. -/
theorem test_ret : look (fun t => (t.pc, readReg 7 t, t.mem.read 0xF3))
    (storeByte 0xF3 0x08 (mk 0x0E [0x11] [(7, 0xF3)])) = some (0x08, 0xF4, 0x08) := by decide
/-- VF15. -/
theorem test_ret_fault : look record (mk 0 [0x11] [(7, 0xFF)]) =
    some (false, .addressOutOfBounds, ⟨.mem, 256⟩) := by decide
/-- VJ1. -/
theorem test_jmp : look (fun t => t.pc) (mk 0 [0x54, 0x00] [(0, 0x40)]) = some 0x40 := by decide
/-- VJ3. -/
theorem test_jeq_taken : look (fun t => t.pc) (mk 0x0F [0x55, 0x02] [(2, 0x16)] 0x01) = some 0x16 := by decide
/-- VJ4: the greater flag is not the equal flag. -/
theorem test_jeq_not_taken : look (fun t => t.pc) (mk 0x0F [0x55, 0x02] [(2, 0x16)] 0x02) = some 0x11 := by decide
/-- VJ10: taken before any compare. -/
theorem test_jne_taken : look (fun t => t.pc) (mk 0x14 [0x56, 0x03] [(3, 0x0C)]) = some 0x0C := by decide
/-- VJ12. -/
theorem test_jne_off_the_end : look (fun t => t.pc) (mk 0xFE [0x56, 0x01] [] 0x01) = some 256 := by decide
/-- VA4, with the flags of the last line of part 2.4. -/
theorem test_add_wraps : look (fun t => (readReg 0 t, readReg 1 t, t.pc, t.fl))
    (mk 0 [0xA0, 0x00, 0x01] [(0, 0xC8), (1, 0x64)] 0x04) = some (0x2C, 0x64, 3, 0x04) := by decide
/-- VA91: the stack pointer as an ordinary operand. -/
theorem test_add_sp : look (fun t => readReg 7 t) (mk 0 [0xA0, 0x07, 0x00] [(0, 0x10)]) = some 0x04 := by decide
/-- VA12. -/
theorem test_mul_wraps : look (fun t => readReg 0 t) (mk 0 [0xA2, 0x00, 0x01] [(0, 0xFF), (1, 0xFF)]) =
    some 0x01 := by decide
/-- VA20. -/
theorem test_and : look (fun t => readReg 0 t) (mk 0 [0xA8, 0x00, 0x01] [(0, 0xF0), (1, 0x3C)]) = some 0x30 := by decide
/-- VA24. -/
theorem test_or : look (fun t => readReg 0 t) (mk 0 [0xAA, 0x00, 0x01] [(0, 0xF0), (1, 0x3C)]) = some 0xFC := by decide
/-- VA27. -/
theorem test_xor : look (fun t => readReg 0 t) (mk 0 [0xAB, 0x00, 0x01] [(0, 0xF0), (1, 0x3C)]) = some 0xCC := by decide
/-- VA35: a count of 9 is not a shift by 1. -/
theorem test_shl_not_masked : look (fun t => readReg 0 t) (mk 0 [0xAC, 0x00, 0x01] [(0, 0x01), (1, 0x09)]) =
    some 0x00 := by decide
/-- VA86: both operands read before the write. -/
theorem test_shl_same : look (fun t => readReg 0 t) (mk 0 [0xAC, 0x00, 0x00] [(0, 0x03)]) = some 0x18 := by decide
/-- VA41. -/
theorem test_shr_logical : look (fun t => readReg 0 t) (mk 0 [0xAD, 0x00, 0x01] [(0, 0xFF), (1, 0x01)]) =
    some 0x7F := by decide
/-- VA45. -/
theorem test_shr_not_masked : look (fun t => readReg 0 t) (mk 0 [0xAD, 0x00, 0x01] [(0, 0xFF), (1, 0x08)]) =
    some 0x00 := by decide
/-- VA56: unsigned. -/
theorem test_mod_unsigned : look (fun t => readReg 0 t) (mk 0 [0xA4, 0x00, 0x01] [(0, 0xFF), (1, 0x80)]) =
    some 0x7F := by decide
/-- VF20. -/
theorem test_mod_zero : look (fun t => (record t, readReg 0 t, t.pc)) (mk 6 [0xA4, 0x00, 0x01] [(0, 5)]) =
    some ((false, .divisionByZero, ⟨.mem, 0⟩), 5, 6) := by decide
/-- VA72. -/
theorem test_not : look (fun t => (readReg 0 t, t.pc)) (mk 0 [0x69, 0x00] [(0, 0xA5)]) = some (0x5A, 2) := by decide
/-- VA63: the old flag is cleared. -/
theorem test_cmp_less : look (fun t => t.fl) (mk 0 [0xA7, 0x00, 0x01] [(1, 0xFF)] 0x01) = some 0x04 := by decide
/-- VA67: unsigned. -/
theorem test_cmp_unsigned : look (fun t => t.fl) (mk 0 [0xA7, 0x00, 0x01] [(0, 0x80), (1, 0x7F)]) = some 0x02 := by decide

/-! ## Faults of the fetch and of the register indices -/

/-- VF1. -/
theorem test_empty_image_faults : look record State.reset = some (false, .invalidInstruction, ⟨.mem, 0⟩) := by decide
/-- VF2. -/
theorem test_fetch_off_the_end : look (fun t => (record t, t.pc)) (mk 256 []) =
    some ((false, .addressOutOfBounds, ⟨.mem, 256⟩), 256) := by decide
/-- VF4 and VF5. -/
theorem test_operand_off_the_end :
    look record (mk 0xFE [0x82, 0x00]) = some (false, .addressOutOfBounds, ⟨.mem, 256⟩) ∧
    look record (mk 0xFF [0x82]) = some (false, .addressOutOfBounds, ⟨.mem, 256⟩) := by decide
/-- VF6: decode comes before operand fetch. -/
theorem test_invalid_before_operand : look record (mk 0xFF [0xFF]) =
    some (false, .invalidInstruction, ⟨.mem, 255⟩) := by decide
/-- VF10. -/
theorem test_first_register_first : look record (mk 0 [0xA4, 0x08, 0x09]) =
    some (false, .addressOutOfBounds, ⟨.reg, 8⟩) := by decide
/-- VF9: the index check comes before the divisor. -/
theorem test_register_before_divisor : look record (mk 3 [0xA4, 0x00, 0x09] [(0, 5)]) =
    some (false, .addressOutOfBounds, ⟨.reg, 9⟩) := by decide
/-- VF11: checked though the jump is not taken. -/
theorem test_register_before_flag : look record (mk 0 [0x55, 0x09]) =
    some (false, .addressOutOfBounds, ⟨.reg, 9⟩) := by decide

/-- 20_memory.md R60: opcode, operand, then the cell at the old stack pointer. -/
theorem test_pop_accesses : cycleAccesses (mk 10 [0x46, 0x00] [(7, 0xF2)]) = [.read 10, .read 11, .read 0xF2] := by decide
/-- VF4: the two bytes memory has are read, 256 is not. -/
theorem test_short_accesses : cycleAccesses (mk 0xFE [0x82, 0x00]) = [.read 0xFE, .read 0xFF] := by decide
/-- 44_alu.md R183: VA67 and VA57 at the block's outputs. -/
theorem test_alu_block : (alu .cmp 0x80 0x7F).flags = 0x02 ∧ (alu .mod 0x05 0x00).div0 = true := by decide
/-- 10_state.md R28, R33: VF13's record on the ports. -/
theorem test_ports : portsOf (faulted State.reset .addressOutOfBounds .mem (-1)) =
    ⟨false, 3, 0, 0x3FF, State.reset.regs, 0, 0⟩ := by decide

/-! ## Hypotheses of the statements

Each theorem names the statements whose hypotheses it meets. -/

/-- Every state of `mk` with a flags byte that occurs is legal: the witness states below are. -/
theorem legal_mk (pc : Nat) (hpc : pc ≤ 256) (bytes : List Byte) (regs : List (RegIdx × Nat)) (fl : Byte)
    (hfl : fl = 0x00 ∨ fl = 0x01 ∨ fl = 0x02 ∨ fl = 0x04) : Legal (mk pc bytes regs fl) := by
  have keep : ∀ (regs : List (RegIdx × Nat)) (s : State), Legal s →
      Legal (regs.foldl (fun s r => writeReg r.1 r.2 s) s) := by
    intro regs
    induction regs with
    | nil => exact fun s h => h
    | cons r regs ih => exact fun s h => ih _ ⟨h.memory, h.pcRange, h.flags, h.faultHalts, h.record⟩
  refine keep regs _ ⟨Memory.wf_writeBytes reset_mem_wf _ _, ?_, hfl, fun h => absurd rfl h, rfl⟩
  simp only [placeAtPc, BitVec.toNat_ofNat]
  omega

/-- Three bytes fit at 253 (`LoadImmediateStoresItsByte`, `StoreWritesTheAddressedCell`, the ten `AluRule` and other ALU
statements), a divisor of 1 and one of 0 (`RemainderOrDivisionByZero`). -/
theorem test_hyp_three_bytes :
    (mk 253 []).pc.toNat ≤ 253 ∧ (mk 253 []).mem.wf ∧ readReg 1 (mk 253 [] [(1, 1)]) ≠ 0 ∧
    readReg 1 (mk 253 []) = 0 := by decide

/-- Two bytes fit at 254 (`PrintAppendsTheRegister`, `ComplementInvertsEveryBit`). -/
theorem test_hyp_two_bytes : (mk 254 []).pc.toNat ≤ 254 := by decide

/-- `FaultsOnBadRegister` and `FaultsOnBadRegisters` at both ends of the bad bytes, in every statement that holds one. -/
theorem test_hyp_bad_register : 7 < (8 : Byte).toNat ∧ 7 < (255 : Byte).toNat ∧
    (Instr.add 0 8).badRegByte = some 8 ∧ (Instr.st 255 8).badRegByte = some 255 := by decide

/-- `FaultsWhereMemoryEnds` and `OperandBeyondMemoryFaults`: every operation of 2 or 3 bytes at 255, those of 3 bytes at 254. -/
theorem test_hyp_memory_ends :
    (∀ o ∈ opcodeRows, 2 ≤ o.len → (mk 255 [o.byte]).running = true ∧ (mk 255 [o.byte]).pc.toNat ≤ 255 ∧
      (mk 255 [o.byte]).mem.read (mk 255 [o.byte]).pc.toNat = o.byte ∧ 256 < (mk 255 [o.byte]).pc.toNat + o.len) ∧
    (∀ o ∈ opcodeRows, o.len = 3 → (mk 254 [o.byte]).running = true ∧ (mk 254 [o.byte]).pc.toNat ≤ 255 ∧
      (mk 254 [o.byte]).mem.read (mk 254 [o.byte]).pc.toNat = o.byte ∧ 256 < (mk 254 [o.byte]).pc.toNat + o.len) := by
  decide

/-- `PushStoresBelowTheStackPointer`: both clauses; `PushThenPopRestores`. -/
theorem test_hyp_push : spOf (mk 0 [] [(7, 0)]) = 0 ∧ (mk 254 [] [(7, 1)]).mem.wf ∧
    (mk 254 [] [(7, 1)]).pc.toNat ≤ 254 ∧ 1 ≤ spOf (mk 254 [] [(7, 1)]) ∧ (6 : RegIdx) ≠ 7 := by decide

/-- `PopTakesTheTopOfStack`: both clauses. -/
theorem test_hyp_pop : spOf (mk 0 [] [(7, 255)]) = 255 ∧ (mk 254 [] [(7, 254)]).pc.toNat ≤ 254 ∧
    spOf (mk 254 [] [(7, 254)]) ≤ 254 := by decide

/-- `CallPushesTheReturnAddress`: the three clauses. -/
theorem test_hyp_call : (mk 254 []).pc.toNat = 254 ∧
    ((mk 253 [] [(7, 0)]).pc.toNat ≤ 253 ∧ spOf (mk 253 [] [(7, 0)]) = 0) ∧
    (mk 253 [] [(7, 1)]).mem.wf ∧ (mk 253 [] [(7, 1)]).pc.toNat ≤ 253 ∧ 1 ≤ spOf (mk 253 [] [(7, 1)]) := by decide

/-- `ReturnPopsTheProgramCounter`: both clauses, and a call whose subroutine has left the stack as it found it. -/
theorem test_hyp_ret : spOf (mk 0 [] [(7, 255)]) = 255 ∧ spOf (mk 0 [] [(7, 254)]) ≤ 254 ∧
    (let s := mk 253 [0x50, 0x01] [(7, 1), (1, 0x80)]
     let t := after s
     let u := writeReg 3 9 t
     s.mem.wf ∧ s.pc.toNat ≤ 253 ∧ 1 ≤ spOf s ∧ exec (.call (regByte 1)) s = .next t ∧
       spOf u = spOf t ∧ u.mem.read (spOf t) = t.mem.read (spOf t)) :=
  ⟨by decide, by decide, by decide, by decide, by decide, rfl, by decide, by decide⟩

/-- `JumpIfEqualReadsTheEqualFlag` and `JumpIfNotEqualReadsTheEqualFlag`: taken and not taken. -/
theorem test_hyp_flag : (mk 0 [] [] 0x01).fl.getLsbD 0 = true ∧ (mk 254 [] [] 0x01).pc.toNat ≤ 254 ∧
    (mk 254 [] [] 0x04).fl.getLsbD 0 = false ∧ (mk 254 [] [] 0x04).pc.toNat ≤ 254 := by decide

/-- `OpcodeMatchedWholeOrInvalid`: a byte of no operation, at the last cell. -/
theorem test_hyp_invalid_opcode : (mk 255 [0xFF]).running = true ∧ (mk 255 [0xFF]).pc.toNat ≤ 255 ∧
    ∀ o : Op, o.byte ≠ (mk 255 [0xFF]).mem.read (mk 255 [0xFF]).pc.toNat :=
  ⟨by decide, by decide, fun o => by cases o <;> decide⟩

/-- `FetchBeyondMemoryFaults`; `StepExistsExactlyWhileRunning` in both states. -/
theorem test_hyp_fetch_beyond : (mk 256 []).running = true ∧ (mk 256 []).pc.toNat = 256 ∧
    (halt State.reset).running = false := by decide

/-- `StepRunsTheDecodedInstruction`: three bytes at 253 and one byte at 255. -/
theorem test_hyp_step_runs :
    (let s := mk 253 [0xA0, 0x01, 0x02]
     let i := Instr.add 1 2
     s.running = true ∧ s.pc.toNat + i.op.len ≤ 256 ∧
       ∀ k < i.op.len, s.mem.read (s.pc.toNat + k) = (encode i).getD k 0) ∧
    (let s := mk 255 [0x11]
     s.running = true ∧ s.pc.toNat + Instr.ret.op.len ≤ 256 ∧
       ∀ k < Instr.ret.op.len, s.mem.read (s.pc.toNat + k) = (encode .ret).getD k 0) := by decide

/-- `ProgramCounterFollowsItsTable`, `FirstFaultOfTheTableIsRaised`, `StepKeepsLegal`, `OnlyTheTablesRegistersChange`,
`AccessesReplayToTheNextMemory`: an instruction that completes at the last place it can. -/
theorem test_hyp_completes :
    let s := mk 253 [0xA0, 0x01, 0x02] [] 0x02
    Legal s ∧ fetch s = .ok (.add 1 2) ∧ step s = .next (after s) ∧ (after s).cause = .none ∧
      firstFault s = none ∧ writesReg 0 (.add 1 2) = false :=
  ⟨legal_mk _ (by decide) _ _ _ (by decide), by decide, rfl, by decide, by decide, by decide⟩

/-- The same statements and `FaultsArePrecise`: an instruction that faults. -/
theorem test_hyp_faults :
    let s := mk 254 [0x50, 0x01] [(7, 0)]
    Legal s ∧ fetch s = .ok (.call 1) ∧ step s = .next (after s) ∧ WentWrong (after s) ∧
      firstFault s = some (.addressOutOfBounds, ⟨.mem, 256⟩) :=
  ⟨legal_mk _ (by decide) _ _ _ (by decide), by decide, rfl, by unfold WentWrong; decide, by decide⟩

/-- `FirstFaultOfTheTableIsRaised`, `FaultsArePrecise`, `StepKeepsLegal`: a fault of the fetch. -/
theorem test_hyp_fetch_faults :
    let s := mk 255 [0x82]
    Legal s ∧ step s = .next (after s) ∧ WentWrong (after s) ∧
      firstFault s = some (.addressOutOfBounds, ⟨.mem, 256⟩) :=
  ⟨legal_mk _ (by decide) _ _ _ (by decide), rfl, by unfold WentWrong; decide, by decide⟩

/-- `ProgramCounterFollowsItsTable` and the statements over all instructions: a halt. -/
theorem test_hyp_halts :
    let s := mk 255 [0x01]
    Legal s ∧ fetch s = .ok .hlt ∧ step s = .next (after s) ∧ (after s).running = false :=
  ⟨legal_mk _ (by decide) _ _ _ (by decide), by decide, rfl, by decide⟩

/-- `JumpToItselfRunsForever`. -/
theorem test_hyp_self_jump :
    let s := mk 254 [0x54, 0x03] [(3, 254)]
    s.running = true ∧ s.pc.toNat ≤ 254 ∧ s.mem.read s.pc.toNat = Config.opcJmp ∧
      s.mem.read (s.pc.toNat + 1) = regByte 3 ∧ (readReg 3 s).toNat = s.pc.toNat := by decide

/-- `OnlyCompareWritesFlags`: a compare that changes the flags, from a byte that is not 0. -/
theorem test_hyp_compare :
    let s := mk 0 [0xA7, 0x00, 0x01] [] 0x04
    fetch s = .ok (.cmp 0 1) ∧ step s = .next (after s) ∧ (after s).fl ≠ s.fl ∧ s.fl ≠ 0x00 :=
  ⟨by decide, rfl, by decide, by decide⟩

/-- `OnlyTheStoredByteChanges`: a store, seen at its address's neighbours, and a form that stores nothing. -/
theorem test_hyp_store :
    let s := mk 0 [0x84, 0x02, 0x00] [(2, 0xFF)]
    Legal s ∧ fetch s = .ok (.st 2 0) ∧ step s = .next (after s) ∧
      storeAddr s (.st 2 0) ≠ some 0xFE ∧ storeAddr s (.st 2 0) ≠ some 0 ∧ storeAddr s (.cmp 2 0) ≠ some 0xFF :=
  ⟨legal_mk _ (by decide) _ _ _ (by decide), by decide, rfl, by decide, by decide, by decide⟩

/-- `OnlyPrintEmits`: an instruction that emits. -/
theorem test_hyp_print :
    let s := mk 254 [0x47, 0x07]
    fetch s = .ok (.prn (regByte 7)) ∧ step s = .next (after s) ∧ (after s).out ≠ s.out :=
  ⟨by decide, rfl, by decide⟩

/-- `UnnamedRegistersAreInert`: the register named interrupt mask, and one beside a register that is named. -/
theorem test_hyp_unnamed : (5 : RegIdx) ≠ 7 ∧ regByte 5 ∉ (Instr.add 0 1).regBytes ∧
    (1 : RegIdx) ≠ 7 ∧ regByte 1 ∉ (Instr.ldi 0 1).regBytes := by decide

/-- `MemoryPrimitivesCheckBounds`: just outside and just inside, at both ends. -/
theorem test_hyp_bounds : ((-1 : Int) < 0 ∨ 255 < (-1 : Int)) ∧ ((256 : Int) < 0 ∨ 255 < (256 : Int)) ∧
    State.reset.mem.wf ∧ 0 ≤ (0 : Int) ∧ (255 : Int) ≤ 255 := by decide

/-- `StoreIsSeenByTheNextFetch`: the last place with a byte after it, storing to that byte and to another. -/
theorem test_hyp_store_next :
    let s := mk 252 [0x84, 0x02, 0x00] [(2, 0xFF)]
    let u := mk 252 [0x84, 0x02, 0x00] [(2, 0xFE)]
    Legal s ∧ s.running = true ∧ s.pc.toNat ≤ 252 ∧ s.mem.read s.pc.toNat = Config.opcSt ∧
      s.mem.read (s.pc.toNat + 1) = regByte 2 ∧ s.mem.read (s.pc.toNat + 2) = regByte 0 ∧
      (readReg 2 s).toNat = s.pc.toNat + 3 ∧ Legal u ∧ (readReg 2 u).toNat ≠ u.pc.toNat + 3 :=
  ⟨legal_mk _ (by decide) _ _ _ (by decide), by decide, by decide, by decide, by decide, by decide, by decide,
    legal_mk _ (by decide) _ _ _ (by decide), by decide⟩

/-- `StackHolds244Pushes`: the last count that fits and the first that does not. -/
theorem test_hyp_pushes : (List.replicate 244 (0 : Byte)).length ≤ 244 ∧ 244 < (List.replicate 245 (0 : Byte)).length :=
  ⟨Nat.le_of_eq List.length_replicate, Nat.lt_of_lt_of_eq (by decide : 244 < 245) List.length_replicate.symm⟩

/-- `DecodeAgreesWithEncode`, `RunsStartAtAddressZeroAndStayLegal`: scenario 1's image and its launch state. -/
theorem test_hyp_launch :
    decode [0x82, 0x00, 0x08, 0x47, 0x00, 0x01] = .ok (.ldi 0 8, [0x47, 0x00, 0x01]) ∧
    ∃ s, launch [0x82, 0x00, 0x08, 0x47, 0x00, 0x01] = some s ∧ Reaches s (after s) :=
  ⟨by decide, _, rfl, .next .start rfl⟩

/-- `LoadFillsMemoryFromZero`: the longest image and one byte more. -/
theorem test_hyp_images : State.reset.mem.wf ∧ (List.replicate 256 (1 : Byte)).length ≤ 256 ∧
    256 < (List.replicate 257 (1 : Byte)).length := ⟨by decide, Nat.le_of_eq List.length_replicate,
    Nat.lt_of_lt_of_eq (by decide : 256 < 257) List.length_replicate.symm⟩

/-- `PortsShowTheFaultRecord`: a legal state whose info value is the least and one whose is the greatest. -/
theorem test_hyp_ports :
    Legal (faulted State.reset .addressOutOfBounds .mem (-1)) ∧ Legal (faulted State.reset .addressOutOfBounds .mem 256) :=
  ⟨⟨by decide, by decide, by decide, fun _ => rfl, .inl rfl⟩, ⟨by decide, by decide, by decide, fun _ => rfl, .inr (.inl rfl)⟩⟩

/-- `AccessesReplayToTheNextMemory`: a `POP` and a `RET` that complete at the highest stack pointer, a fetch beyond memory, an
invalid opcode and an operand beyond memory. -/
theorem test_hyp_accesses :
    (let s := mk 254 [0x46, 0x02] [(7, 254)]
     Legal s ∧ step s = .next (after s) ∧ fetch s = .ok (.pop 2) ∧ (after s).cause = .none) ∧
    (let s := mk 255 [0x11] [(7, 254)]
     Legal s ∧ step s = .next (after s) ∧ fetch s = .ok .ret ∧ (after s).cause = .none) ∧
    (let s := mk 256 []
     Legal s ∧ step s = .next (after s) ∧ fetch s = .error (addressOutOfBounds .mem 256)) ∧
    (let s := mk 255 [0xFF]
     Legal s ∧ step s = .next (after s) ∧ fetch s = .error (invalidInstruction 0xFF)) ∧
    (let s := mk 254 [0x82, 0x00]
     Legal s ∧ step s = .next (after s) ∧ fetch s = .error (addressOutOfBounds .mem 256)) :=
  ⟨⟨legal_mk _ (by decide) _ _ _ (by decide), rfl, by decide, by decide⟩,
    ⟨legal_mk _ (by decide) _ _ _ (by decide), rfl, by decide, by decide⟩,
    ⟨legal_mk _ (by decide) _ _ _ (by decide), rfl, by decide⟩,
    ⟨legal_mk _ (by decide) _ _ _ (by decide), rfl, by decide⟩,
    ⟨legal_mk _ (by decide) _ _ _ (by decide), rfl, by decide⟩⟩

/-- `AluBlockOutputs`, `ShiftLeftTakesTheWholeCount`, `ShiftRightFillsWithZeros`, `RegisterWriteKeepsTheLowByte`: the least
divisor, the least count that clears the register, another register. -/
theorem test_hyp_alu : (1 : Byte) ≠ 0 ∧ 8 ≤ (8 : Byte).toNat ∧ (0 : RegIdx) ≠ 7 := by decide

/-- `CompareOverwritesTheFlags`: equal, greater and less, at the extremes. -/
theorem test_hyp_orders :
    (readReg 0 (mk 253 [])).toNat = (readReg 1 (mk 253 [])).toNat ∧
    (readReg 1 (mk 253 [] [(0, 255)])).toNat < (readReg 0 (mk 253 [] [(0, 255)])).toNat ∧
    (readReg 0 (mk 253 [] [(1, 255)])).toNat < (readReg 1 (mk 253 [] [(1, 255)])).toNat := by decide

end Sys2Proof.Tests
end

section
/-! Opcode fetch and match (spec/40_dispatch.md R111, R112): what the decoder answers for a byte of the table and for any
other byte, and what a cycle that meets an invalid opcode does. -/

namespace Sys2Proof

/-- The operand bytes of the instruction an operation makes of two bytes: those its format has, in order. -/
theorem operands_build (o : Op) (b1 b2 : Byte) (rest : List Byte) :
    (o.build b1 b2).operands = (b1 :: b2 :: rest).take (o.len - 1) := by
  cases o <;> rfl

/-- No row is found exactly for the bytes of no operation (30_encoding.md R87). -/
theorem lookupOp_eq_none_iff {op : Byte} : lookupOp op = none ↔ ∀ o : Op, o.byte ≠ op := by
  constructor
  · rintro h o rfl
    simp at h
  · intro h
    cases ho : lookupOp op with
    | none => rfl
    | some o => exact absurd (byte_of_lookupOp ho).symm (h o)

/-- After an operation's own byte the decoder collects that operation's operands. -/
@[simp] theorem decode_opByte_cons (o : Op) (rest : List Byte) :
    decode (o.byte :: rest) = decodeOperands o rest := by
  simp [decode]

/-- A byte of no operation is rejected, whatever follows it (40_dispatch.md R112). -/
theorem decode_invalid_cons {op : Byte} (h : ∀ o : Op, o.byte ≠ op) (rest : List Byte) :
    decode (op :: rest) = .error (.invalidOpcode op) := by
  simp [decode, lookupOp_eq_none_iff.mpr h]

end Sys2Proof

namespace Sys2Proof.Machine

open Sys2Proof.Safety

/-- Within memory the window begins with the opcode byte (40_dispatch.md R111). -/
theorem fetchWindow_cons {s : State} (h : s.pc.toNat ≤ 255) :
    fetchWindow s = s.mem.read s.pc.toNat :: bytesFrom s.mem (s.pc.toNat + 1) 2 := by
  simp [fetchWindow, bytesFrom, h]

/-- The decoder rejects the window of a state whose byte at `pc` is no operation's. -/
theorem decode_fetchWindow_invalid {s : State} (hpc : s.pc.toNat ≤ 255)
    (hop : ∀ o : Op, o.byte ≠ s.mem.read s.pc.toNat) :
    decode (fetchWindow s) = .error (.invalidOpcode (s.mem.read s.pc.toNat)) := by
  rw [fetchWindow_cons hpc, decode_invalid_cons hop]

/-- A rejected window is the fault of the fetch. -/
theorem fetch_of_decode_error {s : State} {e : DecodeError} (h : decode (fetchWindow s) = .error e) :
    fetch s = .error (fetchTrap s e) := by
  simp [fetch, h]

/-- Taking `InvalidInstruction` sets the fault record of R205 with the opcode as info, and nothing else. -/
theorem raise_invalidInstruction (op : Byte) (s : State) :
    raise (invalidInstruction op) s = faulted s .invalidInstruction .mem op.toNat := rfl

/-- A cycle whose opcode is rejected reads the opcode byte alone. -/
theorem cycleAccesses_of_invalidOpcode {s : State} {op : Byte} (hr : s.running = true)
    (h : decode (fetchWindow s) = .error (.invalidOpcode op)) :
    cycleAccesses s = [.read s.pc.toNat] := by
  simp [cycleAccesses, hr, h, instrReads]

/-- Settles O23: a byte of the table is matched to its row, whose length is then cut from the bytes after it; any other
byte makes the window rejected before an operand is looked for. -/
theorem opcodeMatchedWholeOrInvalid : Obligations.OpcodeMatchedWholeOrInvalid := by
  unfold Obligations.OpcodeMatchedWholeOrInvalid
  constructor
  · intro o b1 b2 rest
    exact ⟨o.build b1 b2, by rw [decode_opByte_cons, decodeOperands_enough], op_build o b1 b2,
      operands_build o b1 b2 rest⟩
  · intro s hr hpc hop
    have hd := decode_fetchWindow_invalid hpc hop
    constructor
    · rw [step_of_fetch_error hr (fetch_of_decode_error hd), fetchTrap, raise_invalidInstruction]
    · exact cycleAccesses_of_invalidOpcode hr hd

end Sys2Proof.Machine
end

section
/-! The parts every instruction rule shares (spec/00_scope.md R10): the encoding of an operation, the fault where memory ends
before its bytes do, and the fault of a register byte that names no register. -/

namespace Sys2Proof.Safety

open Sys2Proof.Machine

/-! ## Encoding (30_encoding.md R81, R82) -/

/-- An operation of format R reads one operand byte. -/
theorem encodedR_of_format {o : Op} (h : o.format = .r) : EncodedR o.byte (fun b => o.build b 0) := by
  intro b rest
  simp [decodeOperands, h]

/-- An operation of length 3 reads two operand bytes. -/
theorem encodedTwo_of_len {o : Op} (h : o.len = 3) : EncodedTwo o.byte o.build := by
  intro b1 b2 rest
  rw [decode_opByte_cons, decodeOperands_enough, h]
  rfl

/-! ## Address faults (60_exceptions.md R203, R205) -/

/-- An answer that takes an address fault raises it. -/
theorem raises_of_raise {s : State} {r : Answer} {space : Space} {a : Int}
    (h : r = .next (raise (addressOutOfBounds space a) s)) : Raises s r .addressOutOfBounds space a :=
  ⟨_, h, rfl⟩

/-! ## Operand fetch beyond memory (40_dispatch.md R113) -/

/-- As many bytes are read as are asked for, or as memory has from there. -/
theorem bytesFrom_length (m : Memory) (a n : Nat) : (bytesFrom m a n).length = min n (256 - a) := by
  induction n generalizing a with
  | zero => simp [bytesFrom]
  | succ n ih =>
    by_cases ha : a ≤ 255
    · simp only [bytesFrom, ha, if_true, List.length_cons, ih]
      omega
    · simp only [bytesFrom, ha, if_false, List.length_nil]
      omega

/-- The decoder misses the byte that would lie at address 256. -/
theorem decode_fetchWindow_short {s : State} {o : Op} (hpc : s.pc.toNat ≤ 255) (hop : s.mem.read s.pc.toNat = o.byte)
    (hend : 256 < s.pc.toNat + o.len) :
    decode (fetchWindow s) = .error (.missingByte (256 - s.pc.toNat)) := by
  have hlen := len_le_three o
  have hrest : (bytesFrom s.mem (s.pc.toNat + 1) 2).length + 1 = 256 - s.pc.toNat := by
    rw [bytesFrom_length]
    omega
  rw [fetchWindow_cons hpc, hop, decode_opByte_cons, decodeOperands_short (by omega), hrest]

/-- Every operation faults at address 256 where memory ends before its bytes do. -/
theorem faultsWhereMemoryEnds_op (o : Op) : FaultsWhereMemoryEnds o.byte o.len := by
  intro s hr hpc hend hop
  have hf := fetch_of_decode_error (decode_fetchWindow_short hpc hop hend)
  have haddr : ((s.pc.toNat : Int) + (256 - s.pc.toNat : Nat)) = 256 := by omega
  apply raises_of_raise
  rw [step_of_fetch_error hr hf, fetchTrap, haddr]

/-! ## Register bytes that name no register (30_encoding.md R83, 40_dispatch.md R114) -/

/-- A meaning that begins by validating its register byte faults on a bad one. -/
theorem faultsOnBadRegister_of_regIdx {mk : Byte → Instr} {body : RegIdx → State → Except Trap State}
    (h : ∀ b s, exec (mk b) s = conclude s (regIdx b >>= fun r => body r s)) : FaultsOnBadRegister mk := by
  intro s b hb
  apply raises_of_raise
  rw [h, regIdx_bad hb, error_bind, conclude_error]

/-- A meaning that begins by validating its two register bytes faults on the first bad one. -/
theorem faultsOnBadRegisters_of_regPair {mk : Byte → Byte → Instr} {body : RegIdx × RegIdx → State → Except Trap State}
    (h : ∀ b1 b2 s, exec (mk b1 b2) s = conclude s (regPair b1 b2 >>= fun p => body p s)) :
    FaultsOnBadRegisters mk := by
  constructor
  · intro s b1 b2 hb
    apply raises_of_raise
    rw [h, regPair_bad_first hb, error_bind, conclude_error]
  · intro s ra b2 hb
    apply raises_of_raise
    rw [h, regPair_bad_second ra hb, error_bind, conclude_error]

end Sys2Proof.Safety
end

section
/-! Data movement and output (spec/41_data.md R130 to R132): what `LDI`, `PRN` and `ST` leave in the state. -/

namespace Sys2Proof.Machine

open Sys2Proof.Safety

/-! ## A register write, then sequential advance -/

/-- The register written holds the value modulo 256 (10_state.md R21), every other register what it held. -/
theorem regBecomes_advance_writeReg (n : Nat) (r : RegIdx) (v : Nat) (s : State) :
    RegBecomes s (advance n (writeReg r v s)) r (BitVec.ofNat 8 v) := by
  intro k
  rw [readReg_advance, readReg_writeReg]

/-- Nothing but registers and the program counter is touched. -/
theorem onlyRegsAndPc_advance_writeReg (n : Nat) (r : RegIdx) (v : Nat) (s : State) :
    OnlyRegsAndPc s (advance n (writeReg r v s)) := ⟨rfl, fun _ => rfl⟩

/-! ## The text of the output (10_state.md R29) -/

/-- A line is the decimal digits, as `Nat.repr` writes them, and a line feed. -/
theorem decimalLine_eq_repr (v : Byte) : decimalLine v = (Nat.repr v.toNat).toList ++ ['\n'] := by
  simp [decimalLine, Nat.repr]

/-- Emitting a value appends its line to the text. -/
theorem outText_append_singleton (out : List Byte) (v : Byte) :
    outText (out ++ [v]) = outText out ++ (Nat.repr v.toNat).toList ++ ['\n'] := by
  rw [outText, List.flatMap_append, List.flatMap_singleton, decimalLine_eq_repr, ← List.append_assoc, outText]

/-! ## The statements -/

/-- Settles O2: the written byte is the immediate, since a byte modulo 256 is itself. -/
theorem loadImmediateStoresItsByte : Obligations.LoadImmediateStoresItsByte := by
  unfold Obligations.LoadImmediateStoresItsByte
  refine ⟨encodedTwo_of_len (o := .ldi) rfl, faultsWhereMemoryEnds_op .ldi,
    fun imm => faultsOnBadRegister_of_regIdx fun _ _ => rfl, ?_⟩
  intro s r imm hpc
  refine ⟨_, exec_ldi r imm s, ?_, advance_pc_toNat 3 _ ?_, onlyRegsAndPc_advance_writeReg ..⟩
  · simpa using regBecomes_advance_writeReg 3 r imm.toNat s
  · rw [writeReg_pc]
    omega

/-- Settles O3: the output gains the value, and so its text the value's line. -/
theorem printAppendsTheRegister : Obligations.PrintAppendsTheRegister := by
  unfold Obligations.PrintAppendsTheRegister
  refine ⟨encodedR_of_format (o := .prn) rfl, faultsWhereMemoryEnds_op .prn,
    faultsOnBadRegister_of_regIdx fun _ _ => rfl, ?_⟩
  intro s r hpc
  refine ⟨_, exec_prn r s, rfl, outText_append_singleton .., advance_pc_toNat 2 _ ?_, rfl, fun _ => rfl⟩
  rw [emit_pc]
  omega

/-- Settles O4: a byte is an address within memory, so the store completes, and a canonical memory reads back what was
stored there and nowhere else. -/
theorem storeWritesTheAddressedCell : Obligations.StoreWritesTheAddressedCell := by
  unfold Obligations.StoreWritesTheAddressedCell
  refine ⟨encodedTwo_of_len (o := .st) rfl, faultsWhereMemoryEnds_op .st,
    faultsOnBadRegisters_of_regPair fun _ _ _ => rfl, ?_⟩
  intro s ra rb hmem hpc
  refine ⟨_, exec_st ra rb s, Memory.read_write hmem _ _, advance_pc_toNat 3 _ ?_, rfl⟩
  rw [storeByte_pc]
  omega

end Sys2Proof.Machine
end

section
/-! Return (spec/42_stack.md R145): what `RET` leaves in the state, and that it undoes the push of a `CALL` (R144). -/

namespace Sys2Proof.Safety

open Sys2Proof.Machine

/-- An operation of format N reads no operand byte (30_encoding.md R81). -/
theorem encodedN_of_format {o : Op} (h : o.format = .n) : EncodedN o.byte (o.build 0 0) := by
  intro rest
  simp [decodeOperands, h]

end Sys2Proof.Safety

namespace Sys2Proof.Machine

open Sys2Proof.Safety

/-! ## The stack pointer after an update -/

/-- A value written to register 7 is the stack pointer, where it is a byte. -/
theorem spOf_writeReg {v : Nat} (h : v ≤ 255) (s : State) : spOf (writeReg 7 v s) = v := by
  rw [spOf, readReg_writeReg, if_pos rfl, BitVec.toNat_ofNat]
  omega

@[simp] theorem spOf_jump (t : Byte) (s : State) : spOf (jump t s) = spOf s := rfl
@[simp] theorem spOf_storeByte (a : Nat) (v : Byte) (s : State) : spOf (storeByte a v s) = spOf s := rfl

/-! ## A completed call and its return -/

/-- A completed `CALL` leaves the stack pointer one lower, at a cell that holds the return address. -/
theorem call_leaves_return_address {s t : State} {r : RegIdx} (hmem : s.mem.wf) (hpc : s.pc.toNat ≤ 253)
    (hsp : 1 ≤ spOf s) (hcall : exec (.call (regByte r)) s = .next t) :
    spOf t = spOf s - 1 ∧ t.mem.read (spOf t) = BitVec.ofNat 8 (s.pc.toNat + 2) := by
  have hle := spOf_le s
  rw [exec_call_pos r hpc hsp] at hcall
  cases hcall
  rw [spOf_jump, spOf_storeByte, spOf_writeReg (by omega), jump_mem, storeByte_mem, writeReg_mem,
    Memory.read_write hmem, if_pos rfl]
  exact ⟨rfl, rfl⟩

/-- A completed `RET` goes to the byte at the stack pointer, which moves one higher; nothing else changes. -/
theorem ret_pops_pc {s : State} (h : spOf s ≤ 254) :
    ∃ t, exec .ret s = .next t ∧ t.pc.toNat = (s.mem.read (spOf s)).toNat ∧
      RegBecomes s t 7 (BitVec.ofNat 8 (spOf s + 1)) ∧ OnlyRegsAndPc s t := by
  refine ⟨_, exec_ret_below h, jump_pc_toNat .., ?_, rfl, fun _ => rfl⟩
  intro k
  rw [readReg_jump, readReg_writeReg]

/-- Settles O8: the pop gives the byte at the stack pointer; after a `CALL` that byte is the return address, which is below
256 and so comes back whole. -/
theorem returnPopsTheProgramCounter : Obligations.ReturnPopsTheProgramCounter := by
  unfold Obligations.ReturnPopsTheProgramCounter
  refine ⟨encodedN_of_format (o := .ret) rfl, fun s h => exec_ret_top h, fun s h => ret_pops_pc h, ?_⟩
  intro s t u r hmem hpc hsp hcall husp hucell
  have hle := spOf_le s
  obtain ⟨htsp, htcell⟩ := call_leaves_return_address hmem hpc hsp hcall
  obtain ⟨v, hret, hvpc, hvreg, -⟩ := ret_pops_pc (s := u) (by omega)
  refine ⟨v, hret, ?pc, ?sp⟩
  case pc =>
    rw [hvpc, husp, hucell, htcell, BitVec.toNat_ofNat]
    omega
  case sp =>
    rw [spOf, hvreg 7, if_pos rfl, BitVec.toNat_ofNat]
    omega

end Sys2Proof.Machine
end

section
/-! Jumps (spec/43_jumps.md R160 to R162): the states a jump taken and a jump not taken leave, and which of the two each
instruction's condition selects. -/

namespace Sys2Proof.Machine

open Sys2Proof.Safety

/-! ## The two ends of a jump -/

/-- A jump taken: the program counter is the target, the length is not added. -/
theorem jump_of_taken {a : Answer} {t : Byte} {s : State} (h : a = .next (jump t s)) :
    ∃ u, a = .next u ∧ u.pc.toNat = t.toNat ∧ OnlyPc s u :=
  ⟨_, h, jump_pc_toNat t s, rfl, fun _ => rfl⟩

/-- A jump not taken: the program counter is 2 further, 256 included. -/
theorem advance_of_not_taken {a : Answer} {s : State} (h : a = .next (advance 2 s)) (hpc : s.pc.toNat ≤ 254) :
    ∃ u, a = .next u ∧ u.pc.toNat = s.pc.toNat + 2 ∧ OnlyPc s u :=
  ⟨_, h, advance_pc_toNat 2 s (by omega), rfl, fun _ => rfl⟩

/-! ## Which end the equal flag selects (10_state.md R26) -/

theorem exec_jeq_of_equal (r : RegIdx) {s : State} (h : s.fl.getLsbD 0 = true) :
    exec (.jeq (regByte r)) s = .next (jump (readReg r s) s) := by
  rw [exec_jeq, flagE, h, if_pos rfl]

theorem exec_jeq_of_not_equal (r : RegIdx) {s : State} (h : s.fl.getLsbD 0 = false) :
    exec (.jeq (regByte r)) s = .next (advance 2 s) := by
  rw [exec_jeq, flagE, h, if_neg Bool.false_ne_true]

theorem exec_jne_of_equal (r : RegIdx) {s : State} (h : s.fl.getLsbD 0 = true) :
    exec (.jne (regByte r)) s = .next (advance 2 s) := by
  rw [exec_jne, flagE, h, if_pos rfl]

theorem exec_jne_of_not_equal (r : RegIdx) {s : State} (h : s.fl.getLsbD 0 = false) :
    exec (.jne (regByte r)) s = .next (jump (readReg r s) s) := by
  rw [exec_jne, flagE, h, if_neg Bool.false_ne_true]

/-! ## The statements -/

/-- Settles O9: `JMP` is the jump that is always taken. -/
theorem jumpTakesTheRegister : Obligations.JumpTakesTheRegister := by
  unfold Obligations.JumpTakesTheRegister
  exact ⟨encodedR_of_format (o := .jmp) rfl, faultsWhereMemoryEnds_op .jmp,
    faultsOnBadRegister_of_regIdx fun _ _ => rfl, fun s r => jump_of_taken (exec_jmp r s)⟩

/-- Settles O10: the register byte is validated before the flag is looked at; then bit 0 alone selects the end. -/
theorem jumpIfEqualReadsTheEqualFlag : Obligations.JumpIfEqualReadsTheEqualFlag := by
  unfold Obligations.JumpIfEqualReadsTheEqualFlag
  refine ⟨encodedR_of_format (o := .jeq) rfl, faultsWhereMemoryEnds_op .jeq,
    faultsOnBadRegister_of_regIdx fun _ _ => rfl, ?taken, ?notTaken⟩
  case taken =>
    intro s r hE
    exact jump_of_taken (exec_jeq_of_equal r hE)
  case notTaken =>
    intro s r hE hpc
    exact advance_of_not_taken (exec_jeq_of_not_equal r hE) hpc

/-- Settles O11: as for `JEQ`, with the two ends exchanged. -/
theorem jumpIfNotEqualReadsTheEqualFlag : Obligations.JumpIfNotEqualReadsTheEqualFlag := by
  unfold Obligations.JumpIfNotEqualReadsTheEqualFlag
  refine ⟨encodedR_of_format (o := .jne) rfl, faultsWhereMemoryEnds_op .jne,
    faultsOnBadRegister_of_regIdx fun _ _ => rfl, ?taken, ?notTaken⟩
  case taken =>
    intro s r hE
    exact jump_of_taken (exec_jne_of_not_equal r hE)
  case notTaken =>
    intro s r hE hpc
    exact advance_of_not_taken (exec_jne_of_equal r hE) hpc

end Sys2Proof.Machine
end

section
/-! Two-operand ALU instructions without a fault of their own (spec/44_alu.md R170 to R176): the shared rule from an
instruction's exact result, and that result cut to 8 bits for each of them. -/

namespace Sys2Proof.Machine

open Sys2Proof.Safety

/-! ## The shared rule (44_alu.md R170) -/

/-- Over bytes that name registers the two-operand form completes. -/
theorem aluRR_regByte (f : Byte → Byte → Nat) (ra rb : RegIdx) (s : State) :
    aluRR f (regByte ra) (regByte rb) s = .ok (advance 3 (writeReg ra (f (readReg ra s) (readReg rb s)) s)) := by
  simp [aluRR]

/-- An operation of length 3 whose meaning is the two-operand form of `f` follows the ALU rule of any relation that holds
of `f` modulo 256. -/
theorem aluRule_of_aluRR {o : Op} {f : Byte → Byte → Nat} {result : Byte → Byte → Byte → Prop} (hlen : o.len = 3)
    (hexec : ∀ b1 b2 s, exec (o.build b1 b2) s = conclude s (aluRR f b1 b2 s))
    (hresult : ∀ a b, result a b (BitVec.ofNat 8 (f a b))) : AluRule o.byte o.build result := by
  refine ⟨encodedTwo_of_len hlen, hlen ▸ faultsWhereMemoryEnds_op o, faultsOnBadRegisters_of_regPair hexec, ?_⟩
  intro s ra rb hpc
  have hnext := hexec (regByte ra) (regByte rb) s
  rw [aluRR_regByte] at hnext
  refine ⟨_, _, hnext, hresult _ _, regBecomes_advance_writeReg _ _ _ _, advance_pc_toNat 3 _ ?_,
    onlyRegsAndPc_advance_writeReg ..⟩
  rw [writeReg_pc]
  omega

/-! ## The exact results cut to 8 bits (10_state.md R21) -/

theorem toNat_ofNat_addExact (a b : Byte) : (BitVec.ofNat 8 (addExact a b)).toNat = (a.toNat + b.toNat) % 256 :=
  BitVec.toNat_ofNat ..

theorem ofNat_andExact (a b : Byte) : BitVec.ofNat 8 (andExact a b) = a &&& b := by
  rw [andExact, BitVec.ofNat_toNat, BitVec.setWidth_eq]

theorem ofNat_orExact (a b : Byte) : BitVec.ofNat 8 (orExact a b) = a ||| b := by
  rw [orExact, BitVec.ofNat_toNat, BitVec.setWidth_eq]

theorem ofNat_xorExact (a b : Byte) : BitVec.ofNat 8 (xorExact a b) = a ^^^ b := by
  rw [xorExact, BitVec.ofNat_toNat, BitVec.setWidth_eq]

/-- The product with a power of two is the shift, by the whole count (44_alu.md R176). -/
theorem ofNat_shlExact (a n : Byte) : BitVec.ofNat 8 (shlExact a n) = a <<< n.toNat := by
  apply BitVec.eq_of_toNat_eq
  rw [BitVec.toNat_ofNat, BitVec.toNat_shiftLeft, Nat.shiftLeft_eq, shlExact]

/-! ## The statements -/

/-- Settles O12: the stored byte is the exact sum modulo 256. -/
theorem addWrapsModulo256 : Obligations.AddWrapsModulo256 := by
  unfold Obligations.AddWrapsModulo256
  exact aluRule_of_aluRR (o := .add) rfl (fun _ _ _ => rfl) toNat_ofNat_addExact

/-- Settles O14: the exact result is a byte already, the bitwise and. -/
theorem andIsBitwise : Obligations.AndIsBitwise := by
  unfold Obligations.AndIsBitwise
  refine aluRule_of_aluRR (o := .and) rfl (fun _ _ _ => rfl) ?_
  intro a b j _
  rw [ofNat_andExact, BitVec.getLsbD_and]

/-- Settles O15: the exact result is a byte already, the bitwise or. -/
theorem orIsBitwise : Obligations.OrIsBitwise := by
  unfold Obligations.OrIsBitwise
  refine aluRule_of_aluRR (o := .or) rfl (fun _ _ _ => rfl) ?_
  intro a b j _
  rw [ofNat_orExact, BitVec.getLsbD_or]

/-- Settles O16: the exact result is a byte already, the bitwise exclusive or. -/
theorem xorIsBitwise : Obligations.XorIsBitwise := by
  unfold Obligations.XorIsBitwise
  refine aluRule_of_aluRR (o := .xor) rfl (fun _ _ _ => rfl) ?_
  intro a b j _
  rw [ofNat_xorExact, BitVec.getLsbD_xor]

/-- Settles O17: the stored byte is the operand shifted within 8 bits by the whole count, which leaves nothing of it from
8 on. -/
theorem shiftLeftTakesTheWholeCount : Obligations.ShiftLeftTakesTheWholeCount := by
  unfold Obligations.ShiftLeftTakesTheWholeCount
  refine aluRule_of_aluRR (o := .shl) rfl (fun _ _ _ => rfl) ?_
  intro a n
  rw [ofNat_shlExact]
  refine ⟨BitVec.toNat_shiftLeft, BitVec.shiftLeft_eq_zero, ?_⟩
  intro j hj
  simp only [BitVec.getLsbD_shiftLeft, hj, decide_true, Bool.true_and, ← decide_not, Nat.not_lt]

end Sys2Proof.Machine
end

section
/-! Decoding and encoding (spec/30_encoding.md sections 1, 3 and 5): the decoder reads an instruction exactly where its encoding
stands, and the opcode values are distinct. -/

namespace Sys2Proof

/-- The encoding of an instruction is its opcode byte, then its operand bytes. -/
theorem encode_append (i : Instr) (rest : List Byte) :
    encode i ++ rest = i.op.byte :: (i.operands ++ rest) := rfl

/-- The operand bytes of an instruction are collected again from the front of any bytes that begin with them. -/
theorem decodeOperands_operands (i : Instr) (rest : List Byte) :
    decodeOperands i.op (i.operands ++ rest) = .ok (i, rest) := by
  cases i <;> rfl

/-- What the decoder collects for an operation is an instruction of that operation, whose operand bytes stood in front. -/
theorem of_decodeOperands_ok {o : Op} {bs rest : List Byte} {i : Instr} (h : decodeOperands o bs = .ok (i, rest)) :
    i.op = o ∧ bs = i.operands ++ rest := by
  have hlen : o.len = o.format.len := rfl
  unfold decodeOperands at h
  split at h
  case h_5 | h_6 | h_7 | h_8 | h_9 => cases h
  all_goals
    next hf =>
    cases h
    rw [hf] at hlen
    simp [operands_build _ _ _ [], hlen, Format.len]

/-- Settles O45: the opcode byte selects one row, whose format fixes how many operand bytes are taken. -/
theorem decodeAgreesWithEncode : Obligations.DecodeAgreesWithEncode := by
  unfold Obligations.DecodeAgreesWithEncode
  intro bs rest i
  constructor
  · intro h
    cases bs with
    | nil => cases h
    | cons op bs =>
      cases ho : lookupOp op with
      | none => simp [decode, ho] at h
      | some o =>
        rw [byte_of_lookupOp ho, decode_opByte_cons] at h
        obtain ⟨rfl, rfl⟩ := of_decodeOperands_ok h
        rw [byte_of_lookupOp ho, encode_append]
  · rintro rfl
    rw [encode_append, decode_opByte_cons, decodeOperands_operands]

/-- The decoder reads an instruction from its own encoding. -/
theorem decode_encode_append (i : Instr) (rest : List Byte) : decode (encode i ++ rest) = .ok (i, rest) :=
  (decodeAgreesWithEncode _ _ _).mpr rfl

/-- Settles O46: each word is run through the decoder. -/
theorem writtenOutWordsDecode : Obligations.WrittenOutWordsDecode := by
  unfold Obligations.WrittenOutWordsDecode
  exact ⟨rfl, rfl, rfl, rfl, rfl, rfl, rfl, rfl, rfl, rfl, rfl⟩

/-- Each operation is found by its own byte, so no two share one. -/
theorem opByte_injective {a b : Op} (h : a.byte = b.byte) : a = b := by
  have ha := lookupOp_byte a
  rw [h, lookupOp_byte] at ha
  exact (Option.some.inj ha).symm

/-- Settles O47: each operation is found by its own byte; the invalid bytes are counted. -/
theorem opcodeValuesAreDistinct : Obligations.OpcodeValuesAreDistinct := by
  unfold Obligations.OpcodeValuesAreDistinct
  exact ⟨fun _ _ => opByte_injective, rfl, by decide +kernel⟩

end Sys2Proof
end

section
/-! Fetch as a fact about memory (spec/40_dispatch.md R111 to R113): an instruction is fetched exactly where its bytes stand,
within memory; the faults of a fetch and their accesses. -/

namespace Sys2Proof.Machine

open Sys2Proof.Safety

/-! ## The bytes at the program counter -/

/-- Byte `k` of the bytes from an address up. -/
theorem getElem?_bytesFrom (m : Memory) (a n k : Nat) :
    (bytesFrom m a n)[k]? = if k < n ∧ a + k ≤ 255 then some (m.read (a + k)) else none := by
  induction n generalizing a k with
  | zero => simp [bytesFrom]
  | succ n ih =>
    unfold bytesFrom
    split
    · cases k with
      | zero => simpa
      | succ k =>
        rw [List.getElem?_cons_succ, ih]
        simp [Nat.add_assoc, Nat.add_comm 1 k]
    · rw [if_neg (by omega), List.getElem?_nil]

/-- An instruction's encoding is as long as its operation says. -/
theorem length_encode (i : Instr) : (encode i).length = i.op.len := operands_length i

/-- The bytes of memory from the program counter on are those of an instruction, all within memory. -/
def HoldsAtPc (s : State) (i : Instr) : Prop :=
  s.pc.toNat + i.op.len ≤ 256 ∧ ∀ k < i.op.len, s.mem.read (s.pc.toNat + k) = (encode i).getD k 0

/-- The window begins with an instruction's encoding exactly where memory holds it. -/
theorem encode_prefix_fetchWindow_iff (s : State) (i : Instr) : encode i <+: fetchWindow s ↔ HoldsAtPc s i := by
  have hlen := len_le_three i.op
  simp only [List.prefix_iff_getElem?, fetchWindow, getElem?_bytesFrom, length_encode]
  constructor
  · intro h
    have hlast := h (i.op.len - 1) (by have := one_le_len i.op; omega)
    split at hlast
    case isFalse => cases hlast
    refine ⟨by omega, fun k hk => ?_⟩
    have hbyte := h k hk
    rw [if_pos (by omega)] at hbyte
    rw [List.getD_eq_getElem _ _ (by rwa [length_encode])]
    exact Option.some.inj hbyte
  · rintro ⟨hroom, hbytes⟩ k hk
    rw [if_pos (by omega), hbytes k hk, List.getD_eq_getElem _ _ (by rwa [length_encode])]

/-- An instruction is fetched exactly where memory holds its bytes. -/
theorem fetch_eq_ok_iff {s : State} {i : Instr} : fetch s = .ok i ↔ HoldsAtPc s i := by
  rw [← encode_prefix_fetchWindow_iff]
  constructor
  · intro h
    unfold fetch at h
    split at h
    · next rest hd =>
      cases h
      exact ⟨rest, ((decodeAgreesWithEncode _ _ _).mp hd).symm⟩
    · cases h
  · rintro ⟨rest, h⟩
    rw [fetch, ← h, decode_encode_append]

/-- Settles O27: the bytes are fetched as the instruction, and the step is its execution. -/
theorem stepRunsTheDecodedInstruction : Obligations.StepRunsTheDecodedInstruction := by
  unfold Obligations.StepRunsTheDecodedInstruction
  intro s i hr hroom hbytes
  exact step_of_fetch hr (fetch_eq_ok_iff.mpr ⟨hroom, hbytes⟩)

/-- The operation whose byte stands at the program counter is fetched where its bytes lie within memory. -/
theorem fetch_of_room {s : State} {o : Op} (hop : s.mem.read s.pc.toNat = o.byte) (hroom : s.pc.toNat + o.len ≤ 256) :
    fetch s = .ok (o.build (s.mem.read (s.pc.toNat + 1)) (s.mem.read (s.pc.toNat + 2))) := by
  have hlen := len_le_three o
  refine fetch_eq_ok_iff.mpr ⟨by rwa [op_build], fun k hk => ?_⟩
  rw [op_build] at hk
  rw [encode, op_build, operands_build _ _ _ []]
  match k with
  | 0 => exact hop
  | 1 => rw [List.getD_cons_succ, List.getD_eq_getElem?_getD, List.getElem?_take_of_lt (by omega)]; rfl
  | 2 => rw [List.getD_cons_succ, List.getD_eq_getElem?_getD, List.getElem?_take_of_lt (by omega)]; rfl
  | k + 3 => omega

/-! ## The faults of a fetch -/

/-- Where a fetch from a program counter of 0 to 256 fails: the program counter is beyond memory, the opcode byte is no
operation's, or memory ends before the operation's bytes do. -/
inductive FetchFault (s : State) : DecodeError → Prop where
  | beyond (hpc : s.pc.toNat = 256) : FetchFault s (.missingByte 0)
  | opcode (hpc : s.pc.toNat ≤ 255) (h : ∀ o : Op, o.byte ≠ s.mem.read s.pc.toNat) :
      FetchFault s (.invalidOpcode (s.mem.read s.pc.toNat))
  | operand (o : Op) (hpc : s.pc.toNat ≤ 255) (hop : s.mem.read s.pc.toNat = o.byte)
      (hend : 256 < s.pc.toNat + o.len) : FetchFault s (.missingByte (256 - s.pc.toNat))

/-- What the decoder answers where a fetch fails. -/
theorem FetchFault.decode_fetchWindow {s : State} {d : DecodeError} (h : FetchFault s d) :
    decode (fetchWindow s) = .error d := by
  cases h with
  | beyond hpc => rw [fetchWindow_past (by omega)]; rfl
  | opcode hpc h => exact decode_fetchWindow_invalid hpc h
  | operand o hpc hop hend => exact decode_fetchWindow_short hpc hop hend

/-- A fetch from a program counter of 0 to 256 gives an instruction or fails in one of three places. -/
theorem fetch_cases {s : State} (hpc : s.pc.toNat ≤ 256) : (∃ i, fetch s = .ok i) ∨ ∃ d, FetchFault s d := by
  by_cases h256 : s.pc.toNat = 256
  · exact .inr ⟨_, .beyond h256⟩
  have hpc : s.pc.toNat ≤ 255 := by omega
  cases ho : lookupOp (s.mem.read s.pc.toNat) with
  | none => exact .inr ⟨_, .opcode hpc (lookupOp_eq_none_iff.mp ho)⟩
  | some o =>
    have hop := byte_of_lookupOp ho
    by_cases hend : 256 < s.pc.toNat + o.len
    · exact .inr ⟨_, .operand o hpc hop hend⟩
    · exact .inl ⟨_, fetch_of_room hop (by omega)⟩

/-- The fault a failing fetch raises is that of the place where it fails. -/
theorem fetchFault_of_fetch_error {s : State} {e : Trap} (hpc : s.pc.toNat ≤ 256) (hf : fetch s = .error e) :
    ∃ d, FetchFault s d ∧ e = fetchTrap s d := by
  rcases fetch_cases hpc with ⟨i, hi⟩ | ⟨d, hd⟩
  · rw [hi] at hf
    cases hf
  · rw [fetch_of_decode_error hd.decode_fetchWindow] at hf
    cases hf
    exact ⟨d, hd, rfl⟩

/-- A step whose fetch fails takes the fault of the place where it fails. -/
theorem FetchFault.step_eq {s : State} {d : DecodeError} (h : FetchFault s d) (hr : s.running = true) :
    step s = .next (raise (fetchTrap s d) s) :=
  step_of_fetch_error hr (fetch_of_decode_error h.decode_fetchWindow)

/-- A byte that is missing lies at address 256. -/
theorem FetchFault.fetchTrap_missingByte {s : State} {n : Nat} (h : FetchFault s (.missingByte n)) :
    fetchTrap s (.missingByte n) = addressOutOfBounds .mem 256 := by
  have haddr : ((s.pc.toNat : Int) + n) = 256 := by cases h <;> omega
  rw [fetchTrap, haddr]

/-- The accesses of a cycle whose fetch fails are the reads before the failure (20_memory.md R60). -/
theorem cycleAccesses_of_missingByte {s : State} {n : Nat} (hr : s.running = true)
    (h : decode (fetchWindow s) = .error (.missingByte n)) : cycleAccesses s = instrReads s.pc.toNat n := by
  simp [cycleAccesses, hr, h]

/-- Settles O24: the window at 256 is empty, so byte 0 of the instruction is the missing one. -/
theorem fetchBeyondMemoryFaults : Obligations.FetchBeyondMemoryFaults := by
  unfold Obligations.FetchBeyondMemoryFaults
  intro s hr hpc
  have hfault := FetchFault.beyond hpc
  constructor
  · rw [hfault.step_eq hr, hfault.fetchTrap_missingByte, raise_addressOutOfBounds]
  · rw [cycleAccesses_of_missingByte hr hfault.decode_fetchWindow]
    rfl

/-- Settles O25: the decoder misses the byte at 256, before any operand is looked at. -/
theorem operandBeyondMemoryFaults : Obligations.OperandBeyondMemoryFaults := by
  unfold Obligations.OperandBeyondMemoryFaults
  intro o s hr hpc hop hend
  have hfault := FetchFault.operand o hpc hop hend
  constructor
  · rw [hfault.step_eq hr, hfault.fetchTrap_missingByte, raise_addressOutOfBounds]
  · exact cycleAccesses_of_missingByte hr hfault.decode_fetchWindow

/-- Settles O26: execution and the faults of a fetch both answer a next state; only a halted machine has none. -/
theorem stepExistsExactlyWhileRunning : Obligations.StepExistsExactlyWhileRunning := by
  unfold Obligations.StepExistsExactlyWhileRunning
  intro s
  constructor
  · intro hr
    cases hf : fetch s with
    | ok i =>
      obtain ⟨t, ht, -⟩ := exec_does i s
      exact ⟨t, (step_of_fetch hr hf).trans ht⟩
    | error e => exact ⟨_, step_of_fetch_error hr hf⟩
  · intro hr
    simp [step, hr]

/-- A state that is its own next state is what any number of steps gives. -/
theorem run_of_step_self {M : Host.Core} {s : M.State} (h : M.step s = .next s) (n : Nat) : M.run n s = .next s := by
  induction n with
  | zero => rfl
  | succ n ih => simp [Host.Core.run, h, ih]

/-- Settles O31: the jump is fetched again from the unchanged memory, and puts the program counter where it is. -/
theorem jumpToItselfRunsForever : Obligations.JumpToItselfRunsForever := by
  unfold Obligations.JumpToItselfRunsForever
  intro s r n hr hpc h0 h1 htarget
  have hstep : core.step s = .next s := by
    have hf := fetch_of_room (o := .jmp) h0 (Nat.add_le_add_right hpc 2)
    rw [h1] at hf
    have hjump : jump (readReg r s) s = s := by
      rw [jump, htarget, BitVec.ofNat_toNat, BitVec.setWidth_eq]
    exact (step_of_fetch hr hf).trans ((exec_jmp r s).trans (congrArg _ hjump))
  exact run_of_step_self hstep n

end Sys2Proof.Machine
end

section
/-! What an instruction leaves in the state where it does not fault, column by column of the spec's tables (spec/10_state.md R25
and R35, 20_memory.md R60), and what a fault leaves. Every invariant of a step is read off these columns. -/

namespace Sys2Proof

/-! ## Register bytes that name a register -/

@[simp] theorem regByteOk_regByte (r : RegIdx) : regByteOk (Safety.regByte r) = true := by
  simp [regByteOk, Machine.regByte_toNat, Nat.le_of_lt_succ r.isLt]

theorem regByte_injective {r k : RegIdx} (h : Safety.regByte r = Safety.regByte k) : r = k :=
  Fin.ext (by rw [← Machine.regByte_toNat r, h, Machine.regByte_toNat])

@[simp] theorem regByte_beq_regByte (r k : RegIdx) : (Safety.regByte r == Safety.regByte k) = (k == r) := by
  rw [Bool.eq_iff_iff, beq_iff_eq, beq_iff_eq]
  exact ⟨fun h => (regByte_injective h).symm, fun h => h ▸ rfl⟩

end Sys2Proof

namespace Sys2Proof.Machine

open Sys2Proof.Safety

/-! ## The columns -/

/-- `t` is what instruction `i` leaves of `s` where it raises no fault, one field per column of the tables. -/
structure Completes (s : State) (i : Instr) (t : State) : Prop where
  pc : s.pc.toNat + i.op.len ≤ 256 → t.pc.toNat = pcAfter s i
  running : t.running = (s.running && i != .hlt)
  cause : t.cause = s.cause
  info : t.info = s.info
  regs : ∀ k, writesReg k i = false → readReg k t = readReg k s
  mem : t.mem = replay (dataColumn s i) s.mem
  flags : t.fl = s.fl ∨ i.op = .cmp ∧ ∃ a b, t.fl = compareFlags a b
  out : t.out = s.out ∨ ∃ r, i = .prn (regByte r) ∧ t.out = s.out ++ [readReg r s]
  access : dataAccess s i = dataColumn s i
  noBadRegByte : i.badRegByte = none
  noOwnFault : ownFault s (i.operands.getD 1 0) i.op = none

/-- Instructions whose one effect is a register write complete so: `LDI`, `NOT` and the two-operand ALU instructions. -/
theorem completes_of_writeReg {s : State} {i : Instr} (r : RegIdx) (v : Nat)
    (hpc : pcAfter s i = s.pc.toNat + i.op.len) (hrun : (i != .hlt) = true)
    (hregs : ∀ k, writesReg k i = (regByte r == regByte k)) (hdata : dataColumn s i = []) (haccess : dataAccess s i = [])
    (hbad : i.badRegByte = none) (hown : ownFault s (i.operands.getD 1 0) i.op = none) :
    Completes s i (advance i.op.len (writeReg r v s)) where
  pc hroom := by rw [advance_pc_toNat _ _ (by rw [writeReg_pc]; omega), hpc, writeReg_pc]
  running := by simp [hrun]
  cause := rfl
  info := rfl
  regs k hk := by
    have hne : k ≠ r := by simpa [hregs] using hk
    simp [hne]
  mem := by rw [hdata]; rfl
  flags := .inl rfl
  out := .inl rfl
  access := by rw [haccess, hdata]
  noBadRegByte := hbad
  noOwnFault := hown

/-- Instructions whose one effect is on the program counter complete so: the jumps. -/
theorem completes_of_onlyPc {s t : State} {i : Instr} (ht : t = { s with pc := t.pc })
    (hpc : s.pc.toNat + i.op.len ≤ 256 → t.pc.toNat = pcAfter s i) (hrun : (i != .hlt) = true)
    (hdata : dataColumn s i = []) (haccess : dataAccess s i = [])
    (hbad : i.badRegByte = none) (hown : ownFault s (i.operands.getD 1 0) i.op = none) :
    Completes s i t where
  pc := hpc
  running := by rw [ht]; simp [hrun]
  cause := by rw [ht]
  info := by rw [ht]
  regs k _ := by rw [ht]; rfl
  mem := by rw [ht, hdata]; rfl
  flags := .inl (by rw [ht])
  out := .inl (by rw [ht])
  access := by rw [haccess, hdata]
  noBadRegByte := hbad
  noOwnFault := hown

/-- One register operand that names a register is no bad byte. -/
theorem badRegByte_one {i : Instr} {r : RegIdx} (h : i.regBytes = [regByte r]) : i.badRegByte = none := by
  simp [Instr.badRegByte, h]

/-- Two register operands that name registers are no bad bytes. -/
theorem badRegByte_two {i : Instr} {ra rb : RegIdx} (h : i.regBytes = [regByte ra, regByte rb]) :
    i.badRegByte = none := by
  simp [Instr.badRegByte, h]

/-- Two-operand ALU instructions complete by the write of their result to the first register. -/
theorem completes_aluRR {s : State} {i : Instr} {ra rb : RegIdx} (v : Nat) (hlen : i.op.len = 3)
    (hpc : pcAfter s i = s.pc.toNat + i.op.len) (hrun : (i != .hlt) = true)
    (hregs : ∀ k, writesReg k i = (regByte ra == regByte k)) (hdata : dataColumn s i = []) (haccess : dataAccess s i = [])
    (hbytes : i.regBytes = [regByte ra, regByte rb]) (hown : ownFault s (i.operands.getD 1 0) i.op = none) :
    Completes s i (advance 3 (writeReg ra v s)) :=
  hlen ▸ completes_of_writeReg ra v hpc hrun hregs hdata haccess (badRegByte_two hbytes) hown

/-- `ST` completes by its one store. -/
theorem completes_st (ra rb : RegIdx) (s : State) :
    Completes s (.st (regByte ra) (regByte rb)) (advance 3 (storeByte (readReg ra s).toNat (readReg rb s) s)) where
  pc hroom := advance_pc_toNat 3 _ (Nat.lt_of_le_of_lt hroom (by decide))
  running := by simp
  cause := rfl
  info := rfl
  regs _ _ := rfl
  mem := by simp [dataColumn, replay]
  flags := .inl rfl
  out := .inl rfl
  access := by simp [dataAccess, dataColumn]
  noBadRegByte := badRegByte_two rfl
  noOwnFault := rfl

/-- `PUSH` completes where the stack pointer is not 0. -/
theorem completes_push (r : RegIdx) {s : State} (h : 1 ≤ spOf s) :
    Completes s (.push (regByte r)) (advance 2 (storeByte (spOf s - 1) (readReg r s) (writeReg 7 (spOf s - 1) s))) where
  pc hroom := advance_pc_toNat 2 _ (Nat.lt_of_le_of_lt hroom (by decide))
  running := by simp
  cause := rfl
  info := rfl
  regs k hk := by
    have hne : k ≠ 7 := by simpa [writesReg] using hk
    simp [hne]
  mem := by simp [dataColumn, replay]
  flags := .inl rfl
  out := .inl rfl
  access := by
    have hsp : (readReg 7 s).toNat ≠ 0 := Nat.ne_of_gt h
    simp [dataAccess, dataColumn, hsp, spOf]
  noBadRegByte := badRegByte_one rfl
  noOwnFault := if_neg (Nat.ne_of_gt h)

/-- `POP` completes where the stack pointer is not 255. -/
theorem completes_pop (r : RegIdx) {s : State} (h : spOf s ≤ 254) :
    Completes s (.pop (regByte r))
      (advance 2 (writeReg r (s.mem.read (spOf s)).toNat (writeReg 7 (spOf s + 1) s))) where
  pc hroom := advance_pc_toNat 2 _ (Nat.lt_of_le_of_lt hroom (by decide))
  running := by simp
  cause := rfl
  info := rfl
  regs k hk := by
    have hne : k ≠ 7 ∧ k ≠ r := by simpa [writesReg] using hk
    simp [hne]
  mem := rfl
  flags := .inl rfl
  out := .inl rfl
  access := by
    have hsp : (readReg 7 s).toNat ≠ 255 := Nat.ne_of_lt (Nat.lt_succ_of_le h)
    simp [dataAccess, dataColumn, hsp, spOf]
  noBadRegByte := badRegByte_one rfl
  noOwnFault := if_neg (Nat.ne_of_lt (Nat.lt_succ_of_le h))

/-- `CALL` completes where its return address lies within memory and the stack pointer is not 0. -/
theorem completes_call (r : RegIdx) {s : State} (hpc : s.pc.toNat ≤ 253) (h : 1 ≤ spOf s) :
    Completes s (.call (regByte r)) (jump (readReg r (writeReg 7 (spOf s - 1) s))
      (storeByte (spOf s - 1) (BitVec.ofNat 8 (s.pc.toNat + 2)) (writeReg 7 (spOf s - 1) s))) where
  pc _ := by
    have hle := spOf_le s
    have h7 : regByte r = 7 ↔ r = 7 := ⟨fun e => regByte_injective (k := 7) e, fun e => e ▸ rfl⟩
    rw [jump_pc_toNat, readReg_writeReg, pcAfter, regAt_regByte]
    simp only [h7]
    split
    · rw [BitVec.toNat_ofNat]
      omega
    · rfl
  running := by simp
  cause := rfl
  info := rfl
  regs k hk := by
    have hne : k ≠ 7 := by simpa [writesReg] using hk
    simp [hne]
  mem := rfl
  flags := .inl rfl
  out := .inl rfl
  access := by
    have hsp : (readReg 7 s).toNat ≠ 0 := Nat.ne_of_gt h
    have hret : ¬ 255 < s.pc.toNat + 2 := by omega
    simp [dataAccess, dataColumn, hsp, hret, spOf]
  noBadRegByte := badRegByte_one rfl
  noOwnFault := (if_neg (by omega)).trans (if_neg (Nat.ne_of_gt h))

/-- `RET` completes where the stack pointer is not 255. -/
theorem completes_ret {s : State} (h : spOf s ≤ 254) :
    Completes s .ret (jump (s.mem.read (spOf s)) (writeReg 7 (spOf s + 1) s)) where
  pc _ := jump_pc_toNat _ _
  running := by simp
  cause := rfl
  info := rfl
  regs k hk := by
    have hne : k ≠ 7 := by simpa [writesReg] using hk
    simp [hne]
  mem := rfl
  flags := .inl rfl
  out := .inl rfl
  access := by
    have hsp : (readReg 7 s).toNat ≠ 255 := Nat.ne_of_lt (Nat.lt_succ_of_le h)
    simp [dataAccess, dataColumn, hsp, spOf]
  noBadRegByte := rfl
  noOwnFault := if_neg (Nat.ne_of_lt (Nat.lt_succ_of_le h))

/-- `HLT` completes by clearing the running flag. -/
theorem completes_hlt (s : State) : Completes s .hlt (halt s) where
  pc _ := rfl
  running := by simp
  cause := rfl
  info := rfl
  regs _ _ := rfl
  mem := rfl
  flags := .inl rfl
  out := .inl rfl
  access := rfl
  noBadRegByte := rfl
  noOwnFault := rfl

/-- `PRN` completes by its one emission. -/
theorem completes_prn (r : RegIdx) (s : State) :
    Completes s (.prn (regByte r)) (advance 2 (emit (readReg r s) s)) where
  pc hroom := advance_pc_toNat 2 _ (Nat.lt_of_le_of_lt hroom (by decide))
  running := by simp
  cause := rfl
  info := rfl
  regs _ _ := rfl
  mem := rfl
  flags := .inl rfl
  out := .inr ⟨r, rfl, rfl⟩
  access := rfl
  noBadRegByte := badRegByte_one rfl
  noOwnFault := rfl

/-- `CMP` completes by its one write of the flags. -/
theorem completes_cmp (ra rb : RegIdx) (s : State) :
    Completes s (.cmp (regByte ra) (regByte rb))
      (advance 3 (setFlags (compareFlags (readReg ra s) (readReg rb s)) s)) where
  pc hroom := advance_pc_toNat 3 _ (Nat.lt_of_le_of_lt hroom (by decide))
  running := by simp
  cause := rfl
  info := rfl
  regs _ _ := rfl
  mem := rfl
  flags := .inr ⟨rfl, _, _, rfl⟩
  out := .inl rfl
  access := rfl
  noBadRegByte := badRegByte_two rfl
  noOwnFault := rfl

/-- `JMP` completes at the register's value. -/
theorem completes_jmp (r : RegIdx) (s : State) : Completes s (.jmp (regByte r)) (jump (readReg r s) s) :=
  completes_of_onlyPc rfl (fun _ => by rw [jump_pc_toNat, pcAfter, regAt_regByte]) rfl rfl rfl (badRegByte_one rfl) rfl

/-- `JEQ` completes at the end the equal flag selects. -/
theorem completes_jeq (r : RegIdx) (s : State) :
    Completes s (.jeq (regByte r)) (if flagE s then jump (readReg r s) s else advance 2 s) := by
  refine completes_of_onlyPc ?_ ?_ rfl rfl rfl (badRegByte_one rfl) rfl
  · split <;> rfl
  · intro hroom
    have hroom : s.pc.toNat + 2 ≤ 256 := hroom
    rw [pcAfter, regAt_regByte, flagE]
    split
    · exact jump_pc_toNat _ _
    · exact advance_pc_toNat 2 _ (by omega)

/-- `JNE` completes at the other end. -/
theorem completes_jne (r : RegIdx) (s : State) :
    Completes s (.jne (regByte r)) (if flagE s then advance 2 s else jump (readReg r s) s) := by
  refine completes_of_onlyPc ?_ ?_ rfl rfl rfl (badRegByte_one rfl) rfl
  · split <;> rfl
  · intro hroom
    have hroom : s.pc.toNat + 2 ≤ 256 := hroom
    rw [pcAfter, regAt_regByte, flagE]
    split
    · exact advance_pc_toNat 2 _ (by omega)
    · exact jump_pc_toNat _ _

/-- Executing an instruction raises one of its faults or completes as the tables say. -/
theorem does_faults_or_completes {s t : State} {i : Instr} (h : Does s i t) :
    (∃ e, ExecTrap s i e ∧ t = raise e s) ∨ Completes s i t := by
  cases h with
  | fault i e he => exact .inl ⟨e, he, rfl⟩
  | hlt => exact .inr (completes_hlt s)
  | ldi r imm => exact .inr (completes_of_writeReg r _ rfl rfl (fun _ => rfl) rfl rfl (badRegByte_one rfl) rfl)
  | not r => exact .inr (completes_of_writeReg r _ rfl rfl (fun _ => rfl) rfl rfl (badRegByte_one rfl) rfl)
  | prn r => exact .inr (completes_prn r s)
  | st ra rb => exact .inr (completes_st ra rb s)
  | push r hsp => exact .inr (completes_push r hsp)
  | pop r hsp => exact .inr (completes_pop r hsp)
  | call r hpc hsp => exact .inr (completes_call r hpc hsp)
  | ret hsp => exact .inr (completes_ret hsp)
  | jmp r => exact .inr (completes_jmp r s)
  | jeq r => exact .inr (completes_jeq r s)
  | jne r => exact .inr (completes_jne r s)
  | cmp ra rb => exact .inr (completes_cmp ra rb s)
  | add | mul | and | or | xor | shl | shr => exact .inr (completes_aluRR _ rfl rfl rfl (fun _ => rfl) rfl rfl rfl rfl)
  | mod ra rb hd =>
    have hdivisor : ¬ regAt (regByte rb) s = 0 := by rwa [regAt_regByte]
    exact .inr (completes_aluRR _ rfl rfl rfl (fun _ => rfl) rfl rfl rfl (if_neg hdivisor))

/-! ## Steps -/

/-- A step of a fetched instruction raises one of the instruction's faults or completes as the tables say. -/
theorem step_faults_or_completes {s t : State} {i : Instr} (hf : fetch s = .ok i) (h : step s = .next t) :
    (∃ e, ExecTrap s i e ∧ t = raise e s) ∨ Completes s i t := by
  obtain ⟨hr, -⟩ := step_cases h
  rw [step_of_fetch hr hf] at h
  exact does_faults_or_completes (does_of_exec h)

end Sys2Proof.Machine
end

section
/-! The faults of a cycle (spec/60_exceptions.md): what each records, and that a cycle raises the first one of the priority
table of R206. -/

namespace Sys2Proof.Machine

open Sys2Proof.Safety

/-! ## Register-index validation (40_dispatch.md R114) -/

/-- A byte that is no register's is above 7. -/
theorem regByteOk_eq_false {b : Byte} : regByteOk b = false ↔ 7 < b.toNat := by
  simp [regByteOk]

/-- The bad byte of an instruction with one register operand is that operand. -/
theorem regIdx_of_badRegByte {i : Instr} {r b : Byte} (hi : i.regBytes = [r]) (hb : i.badRegByte = some b) :
    regIdx r = .error (addressOutOfBounds .reg b.toNat) := by
  rcases regIdx_cases r with ⟨k, rfl, -⟩ | ⟨h, hx⟩
  · rw [badRegByte_one hi] at hb
    cases hb
  · have hbad : i.badRegByte = some r := by simp [Instr.badRegByte, hi, regByteOk_eq_false.mpr h]
    rw [hbad] at hb
    cases hb
    exact hx

/-- The bad byte of an instruction with two register operands is the first of them that is above 7. -/
theorem regPair_of_badRegByte {i : Instr} {r1 r2 b : Byte} (hi : i.regBytes = [r1, r2]) (hb : i.badRegByte = some b) :
    regPair r1 r2 = .error (addressOutOfBounds .reg b.toNat) := by
  simp only [Instr.badRegByte, hi, List.find?_cons] at hb
  rcases regIdx_cases r1 with ⟨k, rfl, -⟩ | ⟨h1, -⟩
  · rcases regIdx_cases r2 with ⟨l, rfl, -⟩ | ⟨h2, -⟩
    · simp at hb
    · simp only [regByteOk_regByte, regByteOk_eq_false.mpr h2, Bool.not_true, Bool.not_false] at hb
      cases hb
      exact regPair_bad_second k h2
  · simp only [regByteOk_eq_false.mpr h1, Bool.not_false] at hb
    cases hb
    exact regPair_bad_first h1 r2

/-- A meaning that begins by validating one register byte takes the fault of the bad one. -/
theorem exec_of_regIdx {i : Instr} {r b : Byte} {s : State} {body : RegIdx → Except Trap State}
    (hi : i.regBytes = [r]) (hx : exec i s = conclude s (regIdx r >>= body)) (hb : i.badRegByte = some b) :
    exec i s = .next (raise (addressOutOfBounds .reg b.toNat) s) := by
  rw [hx, regIdx_of_badRegByte hi hb, error_bind, conclude_error]

/-- A meaning that begins by validating two register bytes takes the fault of the first bad one. -/
theorem exec_of_regPair {i : Instr} {r1 r2 b : Byte} {s : State} {body : RegIdx × RegIdx → Except Trap State}
    (hi : i.regBytes = [r1, r2]) (hx : exec i s = conclude s (regPair r1 r2 >>= body)) (hb : i.badRegByte = some b) :
    exec i s = .next (raise (addressOutOfBounds .reg b.toNat) s) := by
  rw [hx, regPair_of_badRegByte hi hb, error_bind, conclude_error]

/-- Every instruction takes the fault of its first bad register byte. -/
theorem exec_badRegByte {i : Instr} {b : Byte} (hb : i.badRegByte = some b) (s : State) :
    exec i s = .next (raise (addressOutOfBounds .reg b.toNat) s) := by
  cases i with
  | hlt | ret => cases hb
  | ldi | prn | push | pop | call | jmp | jeq | jne | not => exact exec_of_regIdx rfl rfl hb
  | st | add | mul | and | or | xor | shl | shr | mod | cmp => exact exec_of_regPair rfl rfl hb

/-- Settles O22: every meaning validates its register bytes first, in operand order; the immediate is none of them. -/
theorem firstBadRegisterByteFaults : Obligations.FirstBadRegisterByteFaults := by
  unfold Obligations.FirstBadRegisterByteFaults
  exact ⟨fun i s b hb => exec_badRegByte hb s, fun r imm => badRegByte_one rfl⟩

/-! ## What a fault records (60_exceptions.md R200 to R203) -/

/-- The record of a trap is one that a legal state can hold after a fault. -/
def Recordable (e : Trap) : Prop := e.cause ≠ .none ∧ InfoLegal e.cause e.info

theorem recordable_below_memory : Recordable (addressOutOfBounds .mem (-1)) := ⟨nofun, .inl rfl⟩

theorem recordable_above_memory : Recordable (addressOutOfBounds .mem 256) := ⟨nofun, .inr (.inl rfl)⟩

/-- The faults of an execution record what their causes allow. -/
theorem ExecTrap.recordable {s : State} {i : Instr} {e : Trap} (h : ExecTrap s i e) : Recordable e := by
  cases h with
  | register i b hm hb => exact ⟨nofun, .inr (.inr ⟨b, hb, rfl⟩)⟩
  | pushBound | callBound => exact recordable_below_memory
  | popBound | retBound | callReturn => exact recordable_above_memory
  | divisor => exact ⟨nofun, rfl⟩

/-- The faults of a fetch record what their causes allow. -/
theorem FetchFault.recordable {s : State} {d : DecodeError} (h : FetchFault s d) : Recordable (fetchTrap s d) := by
  cases d with
  | missingByte n => exact h.fetchTrap_missingByte ▸ recordable_above_memory
  | invalidOpcode op =>
    cases h with
    | opcode hpc hop => exact ⟨nofun, _, lookupOp_eq_none_iff.mpr hop, rfl⟩

/-- What a step from a legal state does: it takes a fault whose record is legal, or completes a fetched instruction. -/
theorem legal_step_cases {s t : State} (hl : Legal s) (h : step s = .next t) :
    (∃ e, Recordable e ∧ t = raise e s) ∨ ∃ i, fetch s = .ok i ∧ Completes s i t := by
  obtain ⟨-, ⟨i, hf, -⟩ | ⟨e, hf, rfl⟩⟩ := step_cases h
  · rcases step_faults_or_completes hf h with ⟨e, he, rfl⟩ | hc
    · exact .inl ⟨e, he.recordable, rfl⟩
    · exact .inr ⟨i, hf, hc⟩
  · obtain ⟨d, hd, rfl⟩ := fetchFault_of_fetch_error hl.pcRange hf
    exact .inl ⟨_, hd.recordable, rfl⟩

/-- A legal state that has a step holds no fault (10_state.md R34). -/
theorem cause_of_legal_step {s t : State} (hl : Legal s) (h : step s = .next t) : s.cause = .none := by
  obtain ⟨hr, -⟩ := step_cases h
  by_contra hc
  rw [hl.faultHalts hc] at hr
  cases hr

/-- Settles O29: a step with a cause took a fault, since completion keeps the old cause, which was none; the machine is then
halted. -/
theorem faultsArePrecise : Obligations.FaultsArePrecise := by
  unfold Obligations.FaultsArePrecise
  intro s t hl h hwrong
  rcases legal_step_cases hl h with ⟨e, -, rfl⟩ | ⟨i, -, hc⟩
  · exact ⟨rfl, rfl⟩
  · exact absurd (hc.cause.trans (cause_of_legal_step hl h)) hwrong

/-! ## The priority table (60_exceptions.md R206) -/

/-- The entries of the table for the faults of a fetch, rows 1 to 4. -/
theorem FetchFault.firstFault_eq {s : State} {d : DecodeError} (h : FetchFault s d) :
    firstFault s = some ((fetchTrap s d).cause, (fetchTrap s d).info) := by
  cases h with
  | beyond hpc =>
    rw [(FetchFault.beyond hpc).fetchTrap_missingByte]
    simp [firstFault, hpc, addressOutOfBounds]
  | opcode hpc hop =>
    simp [firstFault, show s.pc.toNat ≠ 256 by omega, lookupOp_eq_none_iff.mpr hop, fetchTrap, invalidInstruction]
  | operand o hpc hop hend =>
    have hlen := len_le_three o
    rw [(FetchFault.operand o hpc hop hend).fetchTrap_missingByte]
    simp only [firstFault, show s.pc.toNat ≠ 256 by omega, if_false, hop, lookupOp_byte]
    by_cases hlast : s.pc.toNat = 255
    · rw [if_pos (by omega)]
      rfl
    · rw [if_neg (by omega), if_pos (by omega)]
      rfl

/-- The entries of the table for an instruction that has been fetched, rows 5 to 7. -/
def instrFault (s : State) (i : Instr) : Option (Cause × Info) :=
  match i.badRegByte with
  | some b => some (.addressOutOfBounds, ⟨.reg, b.toNat⟩)
  | none => ownFault s (i.operands.getD 1 0) i.op

/-- Rows 5 and 6 name the first bad register byte. -/
theorem badRegByte_eq (i : Instr) :
    i.badRegByte =
      if i.op.format ≠ .n ∧ 7 < (i.operands.getD 0 0).toNat then some (i.operands.getD 0 0)
      else if i.op.format = .rr ∧ 7 < (i.operands.getD 1 0).toNat then some (i.operands.getD 1 0) else none := by
  cases i with
  | hlt | ret => rfl
  | ldi r | prn r | push r | pop r | call r | jmp r | jeq r | jne r | not r =>
    by_cases h : 7 < r.toNat <;> simp [Instr.badRegByte, Instr.regBytes, regByteOk, Instr.op, Op.format, Instr.operands, h]
  | st r1 r2 | add r1 r2 | mul r1 r2 | and r1 r2 | or r1 r2 | xor r1 r2 | shl r1 r2 | shr r1 r2 | mod r1 r2 | cmp r1 r2 =>
    by_cases h : 7 < r1.toNat <;> by_cases h' : 7 < r2.toNat <;>
      simp [Instr.badRegByte, Instr.regBytes, regByteOk, Instr.op, Op.format, Instr.operands, h, h']

/-- Only operations of length 3 look at the second operand byte in their own checks. -/
theorem ownFault_congr {s : State} {o : Op} {b b' : Byte} (h : o.len = 3 → b = b') : ownFault s b o = ownFault s b' o := by
  cases o with
  | mod => rw [h rfl]
  | _ => rfl

/-- Operations with an operand are 2 or 3 bytes long. -/
theorem two_le_len_of_format {o : Op} (h : o.format ≠ .n) : 2 ≤ o.len := by
  cases hf : o.format with
  | n => exact absurd hf h
  | _ => simp [Op.len, hf, Format.len]

/-- Where an instruction is fetched, the table is left to the instruction's own rows. -/
theorem firstFault_of_fetch {s : State} {i : Instr} (hf : fetch s = .ok i) : firstFault s = instrFault s i := by
  obtain ⟨hroom, hbytes⟩ := fetch_eq_ok_iff.mp hf
  have hpos := one_le_len i.op
  have h0 : s.mem.read s.pc.toNat = i.op.byte := hbytes 0 hpos
  have h1 : i.op.format ≠ .n → s.mem.read (s.pc.toNat + 1) = i.operands.getD 0 0 := fun h =>
    hbytes 1 (two_le_len_of_format h)
  have h2 : i.op.len = 3 → s.mem.read (s.pc.toNat + 2) = i.operands.getD 1 0 := fun h => hbytes 2 (by omega)
  have hrr : i.op.format = .rr → i.op.len = 3 := fun h => by rw [Op.len, h]; rfl
  simp only [firstFault, show s.pc.toNat ≠ 256 by omega, if_false, h0, lookupOp_byte]
  rw [if_neg (by omega), if_neg (by omega), ownFault_congr h2, instrFault, badRegByte_eq]
  by_cases hn : i.op.format = .n
  · simp [hn]
  · rw [h1 hn]
    by_cases hr : i.op.format = .rr
    · rw [h2 (hrr hr)]
      split_ifs <;> rfl
    · simp only [hr, false_and, if_false]
      split_ifs <;> rfl

/-- A register byte above 7 among an instruction's makes one of them its bad one. -/
theorem exists_badRegByte {i : Instr} {b : Byte} (hm : b ∈ i.regBytes) (hb : 7 < b.toNat) :
    ∃ c, i.badRegByte = some c :=
  Option.isSome_iff_exists.mp (List.find?_isSome.mpr ⟨b, hm, by rw [regByteOk_eq_false.mpr hb]; rfl⟩)

/-- An instruction without a bad register byte that faults raises what its own checks name. -/
theorem ExecTrap.ownFault_eq {s : State} {i : Instr} {e : Trap} (h : ExecTrap s i e) (hb : i.badRegByte = none) :
    ownFault s (i.operands.getD 1 0) i.op = some (e.cause, e.info) := by
  cases h with
  | register i b hm hbad =>
    obtain ⟨c, hc⟩ := exists_badRegByte hm hbad
    rw [hb] at hc
    cases hc
  | pushBound r h => exact if_pos h
  | popBound r h => exact if_pos h
  | retBound h => exact if_pos h
  | callReturn r h => exact if_pos (by omega)
  | callBound r hpc h => exact (if_neg (by omega)).trans (if_pos h)
  | divisor ra rb h =>
    have hdivisor : regAt (regByte rb) s = 0 := by rwa [regAt_regByte]
    exact if_pos hdivisor

/-- Executing an instruction takes the fault its rows name, and completes where they name none. -/
theorem exec_instrFault {s t : State} {i : Instr} (h : exec i s = .next t) :
    (∃ e, instrFault s i = some (e.cause, e.info) ∧ t = raise e s) ∨ (instrFault s i = none ∧ Completes s i t) := by
  unfold instrFault
  cases hb : i.badRegByte with
  | some b =>
    rw [exec_badRegByte hb] at h
    cases h
    exact .inl ⟨addressOutOfBounds .reg b.toNat, rfl, rfl⟩
  | none =>
    rcases does_faults_or_completes (does_of_exec h) with ⟨e, he, rfl⟩ | hc
    · exact .inl ⟨e, he.ownFault_eq hb, rfl⟩
    · exact .inr ⟨hc.noOwnFault, hc⟩

/-- Settles O30: rows 1 to 4 are the places where a fetch fails; rows 5 to 7 are the checks of the fetched instruction. -/
theorem firstFaultOfTheTableIsRaised : Obligations.FirstFaultOfTheTableIsRaised := by
  unfold Obligations.FirstFaultOfTheTableIsRaised
  intro s t hl h
  obtain ⟨hr, -⟩ := step_cases h
  rcases fetch_cases hl.pcRange with ⟨i, hf⟩ | ⟨d, hd⟩
  · have hx := h
    rw [step_of_fetch hr hf] at hx
    rw [firstFault_of_fetch hf]
    rcases exec_instrFault hx with ⟨e, he, rfl⟩ | ⟨hn, hc⟩
    · rw [he]
      rfl
    · rw [hn]
      exact hc.cause.trans (cause_of_legal_step hl h)
  · rw [hd.step_eq hr] at h
    cases h
    rw [hd.firstFault_eq]
    rfl

end Sys2Proof.Machine
end

section
/-! Invariants of a step (spec/10_state.md sections 2 to 4 and 7), read off the columns of the tables, and of a run. -/

namespace Sys2Proof.Machine

open Sys2Proof.Safety

/-! ## What one instruction changes -/

/-- Settles O28: completion follows the table and keeps cause `NONE`; a fault keeps the program counter and halts. -/
theorem programCounterFollowsItsTable : Obligations.ProgramCounterFollowsItsTable := by
  unfold Obligations.ProgramCounterFollowsItsTable
  intro s t i hl hf h
  obtain ⟨hr, -⟩ := step_cases h
  rcases step_faults_or_completes hf h with ⟨e, he, rfl⟩ | hc
  · have hcause := he.recordable.1
    exact ⟨fun hn => absurd hn hcause, fun _ => rfl, by simp [hcause]⟩
  · have hcause := hc.cause.trans (cause_of_legal_step hl h)
    refine ⟨fun _ => hc.pc (fetch_room hf), fun hn => absurd hcause hn, ?_⟩
    simp [hc.running, hr, hcause]

/-- A compare never leaves the flags byte 0. -/
theorem compareFlags_ne_zero (a b : Byte) : compareFlags a b ≠ 0x00 := by
  rcases compareFlags_cases a b with h | h | h <;> rw [h] <;> decide

/-- Settles O35: the flags column. -/
theorem onlyCompareWritesFlags : Obligations.OnlyCompareWritesFlags := by
  unfold Obligations.OnlyCompareWritesFlags
  intro s t i hf h
  rcases step_faults_or_completes hf h with ⟨e, -, rfl⟩ | hc
  · exact ⟨fun hne => absurd rfl hne, id⟩
  · rcases hc.flags with hfl | ⟨hop, a, b, hfl⟩
    · exact ⟨fun hne => absurd hfl hne, fun hne => hfl ▸ hne⟩
    · exact ⟨fun _ => hop, fun _ => hfl ▸ compareFlags_ne_zero a b⟩

/-- Settles O36: the register columns. -/
theorem onlyTheTablesRegistersChange : Obligations.OnlyTheTablesRegistersChange := by
  unfold Obligations.OnlyTheTablesRegistersChange
  intro s t i k hf h hk
  rcases step_faults_or_completes hf h with ⟨e, -, rfl⟩ | hc
  · rfl
  · exact hc.regs k hk

/-- Settles O38: the output column. -/
theorem onlyPrintEmits : Obligations.OnlyPrintEmits := by
  unfold Obligations.OnlyPrintEmits
  intro s t i hf h
  rcases step_faults_or_completes hf h with ⟨e, -, rfl⟩ | hc
  · exact .inl rfl
  · exact hc.out

/-- The data access of an instruction stores at its store address alone. -/
theorem read_replay_dataColumn {s : State} {i : Instr} {a : Nat} (hm : s.mem.wf) (ha : storeAddr s i ≠ some a) :
    (replay (dataColumn s i) s.mem).read a = s.mem.read a := by
  cases i with
  | st | push | call =>
    have hne : ∀ b, some b ≠ some a → a ≠ b := fun b h e => h (congrArg some e.symm)
    exact (Memory.read_write hm _ _ a).trans (if_neg (hne _ ha))
  | _ => rfl

/-- Settles O37: the memory column, over a canonical memory. -/
theorem onlyTheStoredByteChanges : Obligations.OnlyTheStoredByteChanges := by
  unfold Obligations.OnlyTheStoredByteChanges
  intro s t i a hl hf h ha
  rcases step_faults_or_completes hf h with ⟨e, -, rfl⟩ | hc
  · rfl
  · rw [hc.mem, read_replay_dataColumn hl.memory ha]

/-! ## The accesses of a cycle (20_memory.md R60) -/

/-- An access drives an address of 0 to 255. -/
def Access.InRange : Access → Prop
  | .read a => a ≤ 255
  | .write a _ => a ≤ 255

theorem byte_le_255 (b : Byte) : b.toNat ≤ 255 := Nat.le_of_lt_succ b.isLt

/-- The instruction's own bytes lie within memory. -/
theorem instrReads_inRange {pc n : Nat} (h : pc + n ≤ 256) : ∀ x ∈ instrReads pc n, x.InRange := by
  intro x hx
  obtain ⟨k, hk, rfl⟩ := List.mem_map.mp hx
  have := List.mem_range.mp hk
  show pc + k ≤ 255
  omega

/-- The data access is at a register's value or beside the stack pointer's. -/
theorem dataColumn_inRange (s : State) (i : Instr) : ∀ x ∈ dataColumn s i, x.InRange := by
  have hsp := spOf_le s
  intro x hx
  cases i with
  | st => exact List.mem_singleton.mp hx ▸ byte_le_255 _
  | push | call => exact List.mem_singleton.mp hx ▸ (show spOf s - 1 ≤ 255 by omega)
  | pop | ret => exact List.mem_singleton.mp hx ▸ hsp
  | _ => cases hx

theorem replay_append (xs ys : List Access) (m : Memory) : replay (xs ++ ys) m = replay ys (replay xs m) := by
  induction xs generalizing m with
  | nil => rfl
  | cons x xs ih => cases x <;> exact ih _

/-- Reading the instruction leaves memory as it is. -/
@[simp] theorem replay_instrReads (pc n : Nat) (m : Memory) : replay (instrReads pc n) m = m := by
  unfold instrReads
  generalize List.range n = ks
  induction ks with
  | nil => rfl
  | cons k ks ih => exact ih

/-- Accesses within memory keep its canonical form. -/
theorem wf_replay {xs : List Access} {m : Memory} (hm : m.wf) (hx : ∀ x ∈ xs, x.InRange) : (replay xs m).wf := by
  induction xs generalizing m with
  | nil => exact hm
  | cons x xs ih =>
    have hxs : ∀ y ∈ xs, y.InRange := fun y hy => hx y (.tail _ hy)
    cases x with
    | read a => exact ih hm hxs
    | write a v => exact ih (Memory.wf_write hm (hx _ (.head _)) v) hxs

/-- An instruction with a bad register byte drives no data access. -/
theorem dataAccess_of_badRegByte {s : State} {i : Instr} {b : Byte} (hb : i.badRegByte = some b) :
    dataAccess s i = [] := by
  cases i with
  | st => simp [dataAccess, regPair_of_badRegByte rfl hb]
  | push | pop | call => simp [dataAccess, regIdx_of_badRegByte rfl hb]
  | ret => cases hb
  | _ => rfl

/-- A faulting instruction drives no data access. -/
theorem ExecTrap.dataAccess_eq {s : State} {i : Instr} {e : Trap} (h : ExecTrap s i e) : dataAccess s i = [] := by
  cases h with
  | register i b hm hb =>
    obtain ⟨c, hc⟩ := exists_badRegByte hm hb
    exact dataAccess_of_badRegByte hc
  | pushBound r h =>
    rw [dataAccess, regIdx_regByte]
    exact if_pos h
  | popBound r h =>
    rw [dataAccess, regIdx_regByte]
    exact if_pos h
  | retBound h => exact if_pos h
  | callReturn r h =>
    rw [dataAccess, regIdx_regByte]
    exact if_pos (.inl (by omega))
  | callBound r hpc h =>
    rw [dataAccess, regIdx_regByte]
    exact if_pos (.inr h)
  | divisor => rfl

/-- The accesses of a cycle that fetches an instruction. -/
theorem cycleAccesses_of_fetch {s : State} {i : Instr} (hr : s.running = true) (hf : fetch s = .ok i) :
    cycleAccesses s = instrReads s.pc.toNat i.op.len ++ dataAccess s i := by
  unfold fetch at hf
  split at hf
  · next hd =>
    cases hf
    simp [cycleAccesses, hr, hd]
  · cases hf

/-- The accesses of a cycle whose fetch fails are the reads the table of a failing fetch gives. -/
theorem FetchFault.cycleAccesses_eq {s : State} {d : DecodeError} (h : FetchFault s d) (hr : s.running = true) :
    cycleAccesses s = instrReads s.pc.toNat (readsOfFaultingFetch s) := by
  cases h with
  | beyond hpc =>
    rw [cycleAccesses_of_missingByte hr (FetchFault.beyond hpc).decode_fetchWindow, readsOfFaultingFetch, if_pos hpc]
  | opcode hpc hop =>
    rw [cycleAccesses_of_invalidOpcode hr (FetchFault.opcode hpc hop).decode_fetchWindow, readsOfFaultingFetch,
      if_neg (by omega), if_pos (lookupOp_eq_none_iff.mpr hop)]
    rfl
  | operand o hpc hop hend =>
    rw [cycleAccesses_of_missingByte hr (FetchFault.operand o hpc hop hend).decode_fetchWindow, readsOfFaultingFetch,
      if_neg (by omega), if_neg (by simp [hop])]

/-- A failing fetch reads no further than memory. -/
theorem readsOfFaultingFetch_room {s : State} (hpc : s.pc.toNat ≤ 256) : s.pc.toNat + readsOfFaultingFetch s ≤ 256 := by
  unfold readsOfFaultingFetch
  split_ifs <;> omega

/-- The data accesses of a step of a fetched instruction: those of the table where it completes, none where it faults; with
them memory becomes what the step leaves. -/
theorem dataAccess_of_step {s t : State} {i : Instr} (hl : Legal s) (hf : fetch s = .ok i) (h : step s = .next t) :
    dataAccess s i = (if t.cause = .none then dataColumn s i else []) ∧ t.mem = replay (dataAccess s i) s.mem := by
  rcases step_faults_or_completes hf h with ⟨e, he, rfl⟩ | hc
  · rw [raise_cause, if_neg he.recordable.1, he.dataAccess_eq]
    exact ⟨rfl, rfl⟩
  · rw [if_pos (hc.cause.trans (cause_of_legal_step hl h)), hc.access]
    exact ⟨rfl, hc.mem⟩

/-- The accesses of a step are in range and make memory what the step leaves. -/
theorem cycleAccesses_inRange_and_replay {s t : State} (hl : Legal s) (h : step s = .next t) :
    (∀ x ∈ cycleAccesses s, x.InRange) ∧ t.mem = replay (cycleAccesses s) s.mem := by
  obtain ⟨hr, -⟩ := step_cases h
  rcases fetch_cases hl.pcRange with ⟨i, hf⟩ | ⟨d, hd⟩
  · obtain ⟨hdata, hmem⟩ := dataAccess_of_step hl hf h
    rw [cycleAccesses_of_fetch hr hf, replay_append, replay_instrReads]
    refine ⟨fun x hx => ?_, hmem⟩
    rcases List.mem_append.mp hx with hx | hx
    · exact instrReads_inRange (fetch_room hf) x hx
    · rw [hdata] at hx
      split at hx
      · exact dataColumn_inRange s i x hx
      · cases hx
  · rw [hd.cycleAccesses_eq hr, replay_instrReads]
    rw [hd.step_eq hr] at h
    cases h
    exact ⟨instrReads_inRange (readsOfFaultingFetch_room hl.pcRange), rfl⟩

/-- Settles O42: the reads of the instruction's bytes leave memory as it is, and its data access makes the memory column. -/
theorem accessesReplayToTheNextMemory : Obligations.AccessesReplayToTheNextMemory := by
  unfold Obligations.AccessesReplayToTheNextMemory
  intro s t hl h
  obtain ⟨hr, -⟩ := step_cases h
  obtain ⟨hrange, hmem⟩ := cycleAccesses_inRange_and_replay hl h
  refine ⟨fun i hf => ?fetched, fun e hf => ?failed, fun a ha => hrange _ ha, fun a v ha => hrange _ ha, hmem⟩
  case fetched => rw [cycleAccesses_of_fetch hr hf, (dataAccess_of_step hl hf h).1]
  case failed =>
    obtain ⟨d, hd, -⟩ := fetchFault_of_fetch_error hl.pcRange hf
    exact hd.cycleAccesses_eq hr

/-! ## Legal states (10_state.md R34) -/

/-- Taking a recordable fault keeps a state legal. -/
theorem legal_raise {s : State} {e : Trap} (hl : Legal s) (he : Recordable e) : Legal (raise e s) where
  memory := hl.memory
  pcRange := hl.pcRange
  flags := hl.flags
  faultHalts _ := rfl
  record := he.2

/-- The table of the program counter stays within 256 for an instruction that lies in memory. -/
theorem pcAfter_le {s : State} {i : Instr} (hroom : s.pc.toNat + i.op.len ≤ 256) : pcAfter s i ≤ 256 := by
  have hbyte : ∀ b : Byte, b.toNat ≤ 256 := fun b => Nat.le_succ_of_le (byte_le_255 b)
  have hsp := spOf_le s
  cases i with
  | hlt => exact Nat.le_of_succ_le hroom
  | call r =>
    simp only [pcAfter]
    split
    · omega
    · exact hbyte _
  | ret | jmp => exact hbyte _
  | jeq r =>
    simp only [pcAfter]
    split
    · exact hbyte _
    · exact hroom
  | jne r =>
    simp only [pcAfter]
    split
    · exact hroom
    · exact hbyte _
  | _ => exact hroom

/-- Completing a fetched instruction keeps a state legal: its accesses lie within memory, and a compare writes one of the
three flag values. -/
theorem Completes.legal {s t : State} {i : Instr} (hc : Completes s i t) (hl : Legal s)
    (hroom : s.pc.toNat + i.op.len ≤ 256) (hcause : s.cause = .none) : Legal t where
  memory := hc.mem ▸ wf_replay hl.memory (dataColumn_inRange s i)
  pcRange := hc.pc hroom ▸ pcAfter_le hroom
  flags := by
    rcases hc.flags with h | ⟨-, a, b, h⟩
    · exact h ▸ hl.flags
    · exact h ▸ .inr (compareFlags_cases a b)
  faultHalts hne := absurd (hc.cause.trans hcause) hne
  record := by
    rw [hc.cause, hc.info]
    exact hl.record

/-- Settles O34: a fault records what its cause allows and halts; completion follows the columns, each of which stays in its
range. -/
theorem stepKeepsLegal : Obligations.StepKeepsLegal := by
  unfold Obligations.StepKeepsLegal
  intro s t hl h
  rcases legal_step_cases hl h with ⟨e, he, rfl⟩ | ⟨i, hf, hc⟩
  · exact legal_raise hl he
  · exact hc.legal hl (fetch_room hf) (cause_of_legal_step hl h)

/-- Every state of a run from a legal state is legal. -/
theorem legal_of_reaches {s t : State} (hl : Legal s) (h : Reaches s t) : Legal t := by
  induction h with
  | start => exact hl
  | next _ hstep ih => exact stepKeepsLegal _ _ ih hstep

end Sys2Proof.Machine
end

section
/-! The instruction rules of the stack, the halt and the ALU (spec/40_dispatch.md R118, 42_stack.md R142 to R144, 44_alu.md R172
and R177 to R180): encoding, faults, result and frame. -/

namespace Sys2Proof.Machine

open Sys2Proof.Safety

/-- Settles O1: the whole effect of `HLT` is the running flag. -/
theorem haltStopsAtItsAddress : Obligations.HaltStopsAtItsAddress := by
  unfold Obligations.HaltStopsAtItsAddress
  exact ⟨encodedN_of_format (o := .hlt) rfl, exec_hlt⟩

/-! ## The stack -/

/-- What `Push` leaves: the stack pointer one lower, the byte at the cell there. -/
theorem push_leaves {s : State} (hmem : s.mem.wf) (n : Nat) (v : Byte) :
    RegBecomes s (storeByte n v (writeReg 7 n s)) 7 (BitVec.ofNat 8 n) ∧
      ByteBecomes s (storeByte n v (writeReg 7 n s)) n v :=
  ⟨fun k => by rw [readReg_storeByte, readReg_writeReg], Memory.read_write hmem _ _⟩

/-- Settles O5: the pushed value is read before the stack pointer moves, and stored in a canonical memory. -/
theorem pushStoresBelowTheStackPointer : Obligations.PushStoresBelowTheStackPointer := by
  unfold Obligations.PushStoresBelowTheStackPointer
  refine ⟨encodedR_of_format (o := .push) rfl, faultsWhereMemoryEnds_op .push,
    faultsOnBadRegister_of_regIdx fun _ _ => rfl, fun s r hsp => exec_push_zero r hsp, ?_⟩
  intro s r hmem hpc hsp
  obtain ⟨hreg, hbyte⟩ := push_leaves hmem (spOf s - 1) (readReg r s)
  refine ⟨_, exec_push_pos r hsp, hreg, hbyte, advance_pc_toNat 2 _ ?_, rfl⟩
  rw [storeByte_pc, writeReg_pc]
  omega

/-- Settles O6: the register is written after the stack pointer, so that the popped byte stands where the two are one. -/
theorem popTakesTheTopOfStack : Obligations.PopTakesTheTopOfStack := by
  unfold Obligations.PopTakesTheTopOfStack
  refine ⟨encodedR_of_format (o := .pop) rfl, faultsWhereMemoryEnds_op .pop,
    faultsOnBadRegister_of_regIdx fun _ _ => rfl, fun s r hsp => exec_pop_top r hsp, ?_⟩
  intro s r hpc hsp
  refine ⟨_, exec_pop_below r hsp, fun k => ?_, advance_pc_toNat 2 _ ?_, rfl, fun _ => rfl⟩
  · rw [readReg_advance, readReg_writeReg, readReg_writeReg, BitVec.ofNat_toNat, BitVec.setWidth_eq]
  · rw [writeReg_pc, writeReg_pc]
    omega

/-- Settles O7: the return address is checked, then pushed, and the target is read from the registers after the push. -/
theorem callPushesTheReturnAddress : Obligations.CallPushesTheReturnAddress := by
  unfold Obligations.CallPushesTheReturnAddress
  refine ⟨encodedR_of_format (o := .call) rfl, faultsWhereMemoryEnds_op .call,
    faultsOnBadRegister_of_regIdx fun _ _ => rfl, fun s r hpc => exec_call_high r (Nat.le_of_eq hpc.symm),
    fun s r hpc hsp => exec_call_zero r hpc hsp, ?_⟩
  intro s r hmem hpc hsp
  have hle := spOf_le s
  obtain ⟨hreg, hbyte⟩ := push_leaves hmem (spOf s - 1) (BitVec.ofNat 8 (s.pc.toNat + 2))
  refine ⟨_, exec_call_pos r hpc hsp, hreg, hbyte, ?_, rfl⟩
  rw [jump_pc_toNat, readReg_writeReg]
  split
  · rw [BitVec.toNat_ofNat]
    omega
  · rfl

/-- Two states whose registers read alike have the same registers. -/
theorem regs_eq_of_readReg {s t : State} (h : ∀ k, readReg k s = readReg k t) : s.regs = t.regs :=
  Vector.ext fun k hk => h ⟨k, hk⟩

/-- Settles O43: the pop finds the pushed byte at the moved stack pointer and moves it back. -/
theorem pushThenPopRestores : Obligations.PushThenPopRestores := by
  unfold Obligations.PushThenPopRestores
  intro s r hmem hr hsp
  have hle := spOf_le s
  obtain ⟨hreg, hbyte⟩ := push_leaves hmem (spOf s - 1) (readReg r s)
  set t := advance 2 (storeByte (spOf s - 1) (readReg r s) (writeReg 7 (spOf s - 1) s)) with ht
  have htsp : spOf t = spOf s - 1 := spOf_writeReg (by omega) s
  have htcell : t.mem.read (spOf s - 1) = readReg r s := (hbyte _).trans (if_pos rfl)
  have hpop := exec_pop_below r (s := t) (by omega)
  rw [htsp, htcell] at hpop
  refine ⟨t, _, exec_push_pos r hsp, hpop, regs_eq_of_readReg fun k => ?_, htcell⟩
  have hk : readReg k t = if k = 7 then BitVec.ofNat 8 (spOf s - 1) else readReg k s := hreg k
  rw [readReg_advance, readReg_writeReg, readReg_writeReg, hk]
  split_ifs with h1 h2
  · rw [BitVec.ofNat_toNat, BitVec.setWidth_eq, h1]
  · rw [Nat.sub_add_cancel hsp, spOf, BitVec.ofNat_toNat, BitVec.setWidth_eq, h2]
  · rfl

/-- Pushes one after another from a canonical memory: as many as the stack pointer leaves room for succeed, the `k`-th byte
ends `k + 1` cells below where the stack pointer stood, the cells from there up are kept, and one more faults. -/
theorem pushes_from {s : State} (hmem : s.mem.wf) (vs : List Byte) :
    (vs.length ≤ spOf s → ∃ t, vs.foldlM (fun s v => push v s) s = .ok t ∧ spOf t = spOf s - vs.length ∧
      (∀ k < vs.length, t.mem.read (spOf s - 1 - k) = vs.getD k 0) ∧ ∀ a, spOf s ≤ a → t.mem.read a = s.mem.read a) ∧
    (spOf s < vs.length → vs.foldlM (fun s v => push v s) s = .error (addressOutOfBounds .mem (-1))) := by
  induction vs generalizing s with
  | nil => exact ⟨fun _ => ⟨s, rfl, rfl, nofun, fun _ _ => rfl⟩, nofun⟩
  | cons v vs ih =>
    rw [List.foldlM_cons, List.length_cons]
    rcases Nat.eq_zero_or_pos (spOf s) with h0 | hpos
    · rw [push_zero h0]
      exact ⟨fun h => by omega, fun _ => rfl⟩
    have hle := spOf_le s
    rw [push_pos hpos, ok_bind]
    obtain ⟨-, hbyte⟩ := push_leaves hmem (spOf s - 1) v
    set t := storeByte (spOf s - 1) v (writeReg 7 (spOf s - 1) s)
    have htsp : spOf t = spOf s - 1 := spOf_writeReg (by omega) s
    obtain ⟨hfit, hover⟩ := ih (s := t) (Memory.wf_write hmem (by omega) v)
    rw [htsp] at hfit hover
    refine ⟨fun h => ?_, fun h => hover ((Nat.sub_lt_iff_lt_add hpos).mpr h)⟩
    specialize hfit (by omega)
    obtain ⟨u, hu, husp, hcells, hkept⟩ := hfit
    refine ⟨u, hu, by rw [husp, Nat.sub_sub, Nat.add_comm], fun k hk => ?_, fun a ha => ?_⟩
    · cases k with
      | zero => rw [Nat.sub_zero, hkept _ le_rfl, hbyte, if_pos rfl, List.getD_cons_zero]
      | succ k =>
        have hcell : spOf s - 1 - (k + 1) = spOf s - 1 - 1 - k := by omega
        rw [List.getD_cons_succ, ← hcells k (by omega), hcell]
    · rw [hkept a (by omega), hbyte, if_neg (by omega)]

/-- Settles O44: the stack pointer is 244 at reset. -/
theorem stackHolds244Pushes : Obligations.StackHolds244Pushes := by
  unfold Obligations.StackHolds244Pushes
  intro vs
  have hsp : spOf State.reset = 244 := rfl
  obtain ⟨hfit, hover⟩ := pushes_from reset_mem_wf vs
  rw [hsp] at hfit hover
  refine ⟨fun h => ?_, hover⟩
  obtain ⟨t, ht, htsp, hcells, -⟩ := hfit h
  exact ⟨t, ht, htsp, hcells⟩

/-! ## The ALU instructions -/

/-- Settles O13: the stored byte is the exact product modulo 256. -/
theorem multiplyKeepsTheLowByte : Obligations.MultiplyKeepsTheLowByte := by
  unfold Obligations.MultiplyKeepsTheLowByte
  exact aluRule_of_aluRR (o := .mul) rfl (fun _ _ _ => rfl) fun _ _ => BitVec.toNat_ofNat ..

/-- The quotient by a power of two is the logical shift, by the whole count (44_alu.md R177). -/
theorem ofNat_shrExact (a n : Byte) : BitVec.ofNat 8 (shrExact a n) = a >>> n.toNat := by
  apply BitVec.eq_of_toNat_eq
  rw [BitVec.toNat_ofNat, BitVec.toNat_ushiftRight, Nat.shiftRight_eq_div_pow, shrExact]
  exact Nat.mod_eq_of_lt (Nat.lt_of_le_of_lt (Nat.div_le_self ..) a.isLt)

/-- Settles O18: the stored byte is the operand shifted logically by the whole count. -/
theorem shiftRightFillsWithZeros : Obligations.ShiftRightFillsWithZeros := by
  unfold Obligations.ShiftRightFillsWithZeros
  refine aluRule_of_aluRR (o := .shr) rfl (fun _ _ _ => rfl) ?_
  intro a n
  rw [ofNat_shrExact]
  refine ⟨?_, BitVec.ushiftRight_eq_zero, fun j _ => ?_⟩
  · rw [BitVec.toNat_ushiftRight, Nat.shiftRight_eq_div_pow]
  · rw [BitVec.getLsbD_ushiftRight, Nat.add_comm]

/-- The exact remainder is a byte already, the unsigned remainder (44_alu.md R178). -/
theorem ofNat_modExact (a b : Byte) : BitVec.ofNat 8 (modExact a b) = a % b := by
  apply BitVec.eq_of_toNat_eq
  rw [BitVec.toNat_ofNat, BitVec.toNat_umod, modExact]
  exact Nat.mod_eq_of_lt (Nat.lt_of_le_of_lt (Nat.mod_le ..) a.isLt)

/-- An instruction with two register operands faults on the first bad one. -/
theorem faultsOnBadRegisters_of_regBytes {mk : Byte → Byte → Instr} (h : ∀ b1 b2, (mk b1 b2).regBytes = [b1, b2]) :
    FaultsOnBadRegisters mk := by
  constructor
  · intro s b1 b2 hb
    have hbad : (mk b1 b2).badRegByte = some b1 := by simp [Instr.badRegByte, h, regByteOk_eq_false.mpr hb]
    exact raises_of_raise (exec_badRegByte hbad s)
  · intro s ra b2 hb
    have hbad : (mk (regByte ra) b2).badRegByte = some b2 := by
      simp [Instr.badRegByte, h, regByteOk_eq_false.mpr hb]
    exact raises_of_raise (exec_badRegByte hbad s)

/-- Settles O19: a zero divisor faults after the register bytes; else the remainder is that of the division. -/
theorem remainderOrDivisionByZero : Obligations.RemainderOrDivisionByZero := by
  unfold Obligations.RemainderOrDivisionByZero
  refine ⟨encodedTwo_of_len (o := .mod) rfl, faultsWhereMemoryEnds_op .mod,
    faultsOnBadRegisters_of_regBytes fun _ _ => rfl, fun s ra rb hd => exec_mod_zero ra rb hd, ?_⟩
  intro s ra rb hpc hd
  have hpos : 0 < (readReg rb s).toNat := Nat.pos_of_ne_zero fun h => hd (BitVec.eq_of_toNat_eq h)
  refine ⟨_, _, exec_mod_pos ra rb hd, ⟨(readReg ra s).toNat / (readReg rb s).toNat, ?_, ?_⟩,
    regBecomes_advance_writeReg _ _ _ _, advance_pc_toNat 3 _ ?_, onlyRegsAndPc_advance_writeReg ..⟩
  · rw [ofNat_modExact, BitVec.toNat_umod, Nat.mul_comm, Nat.div_add_mod]
  · rw [ofNat_modExact, BitVec.toNat_umod]
    exact Nat.mod_lt _ hpos
  · rw [writeReg_pc]
    omega

/-- 255 less a byte is the byte with every bit inverted (44_alu.md R179). -/
theorem ofNat_notExact (a : Byte) : BitVec.ofNat 8 (notExact a) = ~~~a := by
  apply BitVec.eq_of_toNat_eq
  rw [BitVec.toNat_ofNat, BitVec.toNat_not, notExact]
  exact Nat.mod_eq_of_lt (by omega)

/-- Inverting a register twice restores every register. -/
theorem regs_not_not (r : RegIdx) (s : State) :
    ∃ t u, exec (.not (regByte r)) s = .next t ∧ exec (.not (regByte r)) t = .next u ∧ u.regs = s.regs := by
  refine ⟨_, _, exec_not r s, exec_not r _, regs_eq_of_readReg fun k => ?_⟩
  simp only [readReg_advance, readReg_writeReg, if_true, ofNat_notExact, BitVec.not_not]
  split_ifs with h
  · rw [h]
  · rfl

/-- Settles O20: 255 less the value is its complement, which is its own inverse. -/
theorem complementInvertsEveryBit : Obligations.ComplementInvertsEveryBit := by
  unfold Obligations.ComplementInvertsEveryBit
  refine ⟨encodedR_of_format (o := .not) rfl, faultsWhereMemoryEnds_op .not,
    faultsOnBadRegister_of_regIdx fun _ _ => rfl, ?_, fun s r => regs_not_not r s⟩
  intro s r hpc
  refine ⟨_, _, exec_not r s, ?_, fun j hj => ?_, regBecomes_advance_writeReg _ _ _ _, advance_pc_toNat 2 _ ?_,
    onlyRegsAndPc_advance_writeReg ..⟩
  · rw [ofNat_notExact, BitVec.toNat_not]
  · rw [ofNat_notExact, BitVec.getLsbD_not]
    simp [hj]
  · rw [writeReg_pc]
    omega

/-- Settles O21: the three orders of the two values select the three flags bytes. -/
theorem compareOverwritesTheFlags : Obligations.CompareOverwritesTheFlags := by
  unfold Obligations.CompareOverwritesTheFlags
  refine ⟨encodedTwo_of_len (o := .cmp) rfl, faultsWhereMemoryEnds_op .cmp,
    faultsOnBadRegisters_of_regPair fun _ _ _ => rfl, ?_⟩
  intro s ra rb hpc
  refine ⟨_, exec_cmp ra rb s, fun h => if_pos h, fun h => ?_, fun h => ?_, advance_pc_toNat 3 _ ?_, rfl, fun _ => rfl⟩
  · exact (if_neg (Nat.ne_of_gt h)).trans (if_pos h)
  · exact (if_neg (Nat.ne_of_lt h)).trans (if_neg (Nat.lt_asymm h))
  · rw [setFlags_pc]
    omega

/-- Settles O49: the exact result cut to 8 bits, operation by operation. -/
theorem aluBlockOutputs : Obligations.AluBlockOutputs := by
  unfold Obligations.AluBlockOutputs
  refine ⟨fun op a b => ⟨?result, ?cmp, compareFlags_cases _ _, ?div0⟩, fun a b c => rfl⟩
  case result =>
    cases op with
    | add => exact BitVec.eq_of_toNat_eq (BitVec.toNat_ofNat ..)
    | mul => exact BitVec.eq_of_toNat_eq (BitVec.toNat_ofNat ..)
    | and => exact ofNat_andExact a b
    | or => exact ofNat_orExact a b
    | xor => exact ofNat_xorExact a b
    | shl => exact ofNat_shlExact a b
    | shr => exact ofNat_shrExact a b
    | mod => exact fun _ => ofNat_modExact a b
    | not => exact ofNat_notExact a
    | cmp => trivial
  case cmp =>
    rintro rfl
    simp only [alu_cmp_flags, compareFlags, BitVec.toNat_inj]
  case div0 => simp [alu]

end Sys2Proof.Machine
end

section
/-! Memory from outside an instruction (spec/20_memory.md, 70_reset_and_hazards.md), reset, the run from a loaded image, and the
ports. -/

namespace Sys2Proof.Machine

open Sys2Proof.Safety

/-! ## Registers and memory -/

/-- Settles O53: the register rule of a write, and that the write is in the registers alone. -/
theorem registerWriteKeepsTheLowByte : Obligations.RegisterWriteKeepsTheLowByte := by
  unfold Obligations.RegisterWriteKeepsTheLowByte
  intro s r v
  refine ⟨?_, fun k hk => ?_, rfl⟩
  · rw [readReg_writeReg, if_pos rfl, BitVec.toNat_ofNat]
  · rw [readReg_writeReg, if_neg hk]

/-- Settles O40: the bounds check comes first; an address that passes it is a natural number within memory. -/
theorem memoryPrimitivesCheckBounds : Obligations.MemoryPrimitivesCheckBounds := by
  unfold Obligations.MemoryPrimitivesCheckBounds
  refine ⟨fun s a v ha => ⟨if_pos ha, if_pos ha⟩, fun s a v hmem h0 h255 => ?_⟩
  obtain ⟨n, rfl⟩ := Int.eq_ofNat_of_zero_le h0
  have hn : n ≤ 255 := by omega
  exact ⟨memRead_nat n s hn, _, memWrite_nat n v s hn, Memory.read_write hmem n v, rfl⟩

/-- Settles O41: the store leaves a canonical memory, in which the next fetch reads its first byte. -/
theorem storeIsSeenByTheNextFetch : Obligations.StoreIsSeenByTheNextFetch := by
  unfold Obligations.StoreIsSeenByTheNextFetch
  intro s ra rb hl hr hpc h0 h1 h2
  have hf := fetch_of_room (o := .st) h0 (show s.pc.toNat + 3 ≤ 256 by omega)
  rw [h1, h2] at hf
  set t := advance 3 (storeByte (readReg ra s).toNat (readReg rb s) s) with ht
  have htpc : t.pc.toNat = s.pc.toNat + 3 := advance_pc_toNat 3 _ (by rw [storeByte_pc]; omega)
  refine ⟨t, (step_of_fetch hr hf).trans (exec_st ra rb s), hr, htpc, ?_⟩
  rw [fetchWindow_cons (by omega), List.head?_cons, htpc]
  simp only [ht, advance_mem, storeByte_mem, Memory.read_write hl.memory, eq_comm]

/-! ## Reset, load and run -/

/-- What every register holds after reset (10_state.md R32). -/
theorem readReg_reset (k : RegIdx) : readReg k State.reset = if k = 7 then 0xF4 else 0x00 := by
  revert k
  decide

/-- Settles O32: the fields of the reset state. -/
theorem resetValues : Obligations.ResetValues := by
  unfold Obligations.ResetValues
  exact fun _ => ⟨rfl, readReg_reset, rfl, rfl, rfl, rfl, rfl, rfl, fun _ => rfl⟩

/-- Settles O33: reset holds no fault, an empty memory and no flag. -/
theorem resetIsLegal : Obligations.ResetIsLegal := by
  unfold Obligations.ResetIsLegal
  exact ⟨reset_mem_wf, Nat.zero_le _, .inl rfl, fun h => absurd rfl h, rfl⟩

/-- Loading an image that fits fills memory from address 0 (70_reset_and_hazards.md R232). -/
theorem loadImage_of_length_le {image : List Byte} (h : image.length ≤ 256) (s : State) :
    loadImage image s = some { s with mem := s.mem.writeBytes 0 image } := if_pos h

/-- Settles O50: the image's bytes are stored one after another from address 0. -/
theorem loadFillsMemoryFromZero : Obligations.LoadFillsMemoryFromZero := by
  unfold Obligations.LoadFillsMemoryFromZero
  intro s image hmem
  refine ⟨fun h => ⟨_, loadImage_of_length_le h s, Memory.wf_writeBytes hmem 0 image, rfl, fun a => ?_⟩,
    fun h => if_neg (by omega)⟩
  rw [Memory.read_writeBytes hmem 0 image a (by omega), if_pos (Nat.zero_le a), Nat.sub_zero]

/-- A launched image fits, and the launch state is reset with the image in memory (70_reset_and_hazards.md R233). -/
theorem of_launch {image : List Byte} {s : State} (h : launch image = some s) :
    image.length ≤ 256 ∧ s = { State.reset with mem := State.reset.mem.writeBytes 0 image } := by
  unfold launch loadImage at h
  split at h
  · next hlen =>
    cases h
    exact ⟨hlen, rfl⟩
  · cases h

/-- The launch state is legal. -/
theorem legal_of_launch {image : List Byte} {s : State} (h : launch image = some s) : Legal s := by
  obtain ⟨-, rfl⟩ := of_launch h
  exact { resetIsLegal with memory := Memory.wf_writeBytes reset_mem_wf 0 image }

/-- The launch state holds, at its program counter 0, the instruction at the front of the image. -/
theorem holdsAtPc_of_launch {image rest : List Byte} {s : State} {i : Instr} (h : launch image = some s)
    (hd : decode image = .ok (i, rest)) : HoldsAtPc s i := by
  obtain ⟨hlen, rfl⟩ := of_launch h
  obtain rfl := (decodeAgreesWithEncode _ _ _).mp hd
  rw [List.length_append, length_encode] at hlen
  have hpc : State.reset.pc.toNat = 0 := rfl
  refine ⟨by simp only [hpc]; omega, fun k hk => ?_⟩
  have hbound : 0 + (encode i ++ rest).length ≤ 256 := by
    rw [List.length_append, length_encode]
    omega
  rw [← length_encode] at hk
  simp only [hpc, Nat.zero_add, Memory.read_writeBytes reset_mem_wf 0 _ k hbound, Nat.zero_le, if_true, Nat.sub_zero]
  rw [List.getD_append _ _ _ _ hk, List.getD_eq_getElem _ _ hk, List.getD_eq_getElem _ _ hk]

/-- Settles O51: the image's first bytes are fetched at 0, and every step keeps the legality of the launch state. -/
theorem runsStartAtAddressZeroAndStayLegal : Obligations.RunsStartAtAddressZeroAndStayLegal := by
  unfold Obligations.RunsStartAtAddressZeroAndStayLegal
  intro image s h
  exact ⟨fun i rest hd => fetch_eq_ok_iff.mpr (holdsAtPc_of_launch h hd),
    fun t ht => legal_of_reaches (legal_of_launch h) ht⟩

/-! ## The ports (10_state.md R33) -/

/-- The value of a legal record is at least -1 and at most 256 (10_state.md R28). -/
theorem info_value_bounds {c : Cause} {i : Info} (h : InfoLegal c i) : -1 ≤ i.value ∧ i.value ≤ 256 := by
  have hbyte := byte_le_255
  cases c with
  | none | divisionByZero => cases h; decide
  | invalidInstruction =>
    obtain ⟨op, -, rfl⟩ := h
    have := hbyte op
    dsimp only
    omega
  | addressOutOfBounds =>
    obtain rfl | rfl | ⟨b, -, rfl⟩ := h
    · decide
    · decide
    · have := hbyte b
      dsimp only
      omega
  | unsupportedOperation => cases h

/-- Settles O52: each port is its field, or its field's code; ten bits hold every legal info value. -/
theorem portsShowTheFaultRecord : Obligations.PortsShowTheFaultRecord := by
  unfold Obligations.PortsShowTheFaultRecord
  refine ⟨rfl, rfl, rfl, rfl, rfl, rfl, rfl, fun s hl => ⟨rfl, rfl, ?_, rfl, rfl, rfl, rfl⟩⟩
  obtain ⟨hlow, hhigh⟩ := info_value_bounds hl.record
  show (BitVec.ofInt 10 s.info.value).toInt = s.info.value
  rw [BitVec.toInt_ofInt]
  exact Int.bmod_eq_of_le (by omega) (by omega)

end Sys2Proof.Machine
end

section
/-! Noninterference (spec/10_state.md section 1, decision D24): a write to a register that an instruction does not name, the
stack pointer excepted, commutes with the instruction. -/

namespace Sys2Proof.Machine

open Sys2Proof.Safety

/-- Writes to different registers commute. -/
theorem writeReg_comm {r k : RegIdx} (h : r ≠ k) (v w : Nat) (s : State) :
    writeReg r v (writeReg k w s) = writeReg k w (writeReg r v s) := by
  have hval : k.val ≠ r.val := fun e => h (Fin.ext e.symm)
  unfold writeReg
  congr 1
  exact Vector.set_comm _ _ hval

/-- Reading another register than the one written. -/
theorem readReg_writeReg_of_ne {r k : RegIdx} (h : r ≠ k) (v : Nat) (s : State) :
    readReg r (writeReg k v s) = readReg r s := by
  rw [readReg_writeReg, if_neg h]

/-- Instruction `i` neither reads nor writes register `k` in `s`, whatever value is put there. -/
def Inert (k : RegIdx) (v : Nat) (s : State) (i : Instr) : Prop :=
  ∃ t, exec i s = .next t ∧ exec i (writeReg k v s) = .next (writeReg k v t) ∧ readReg k t = readReg k s

/-- An instruction whose answer is a state function that commutes with the write and keeps the register is inert. -/
theorem inert_of_exec {k : RegIdx} {v : Nat} {s : State} {i : Instr} {f : State → State}
    (hx : ∀ s, exec i s = .next (f s)) (hcomm : f (writeReg k v s) = writeReg k v (f s))
    (hkeep : readReg k (f s) = readReg k s) : Inert k v s i :=
  ⟨f s, hx s, by rw [hx, hcomm], hkeep⟩

/-- An instruction that takes the same fault before and after the write is inert. -/
theorem inert_of_raise {k : RegIdx} {v : Nat} {s : State} {i : Instr} {e : Trap} (h : exec i s = .next (raise e s))
    (h' : exec i (writeReg k v s) = .next (raise e (writeReg k v s))) : Inert k v s i :=
  ⟨_, h, h', rfl⟩

/-- A register that an operand names is not one that no operand names. -/
theorem ne_of_named {k r : RegIdx} {bs : List Byte} (hk : regByte k ∉ bs) (hr : regByte r ∈ bs) : r ≠ k :=
  fun e => hk (e ▸ hr)

/-- A two-operand ALU instruction is inert in every register but its two. -/
theorem inert_aluRR {k ra rb : RegIdx} {v : Nat} {s : State} {i : Instr} {f : Byte → Byte → Nat}
    (hk : regByte k ∉ [regByte ra, regByte rb])
    (hx : exec i s = .next (advance 3 (writeReg ra (f (readReg ra s) (readReg rb s)) s)))
    (hx' : exec i (writeReg k v s) = .next (advance 3 (writeReg ra
      (f (readReg ra (writeReg k v s)) (readReg rb (writeReg k v s))) (writeReg k v s)))) : Inert k v s i := by
  have ha := ne_of_named hk (.head _)
  have hb := ne_of_named hk (.tail _ (.head _))
  rw [readReg_writeReg_of_ne ha, readReg_writeReg_of_ne hb, writeReg_comm ha] at hx'
  exact ⟨_, hx, hx', readReg_writeReg_of_ne ha.symm _ _⟩

/-- The stack pointer is not changed by a write to another register. -/
theorem spOf_writeReg_of_ne {k : RegIdx} (h : k ≠ 7) (v : Nat) (s : State) : spOf (writeReg k v s) = spOf s := by
  rw [spOf, readReg_writeReg_of_ne h.symm, spOf]

/-- Every instruction is inert in every register that it does not name, the stack pointer excepted. -/
theorem inert_of_unnamed {k : RegIdx} (hk7 : k ≠ 7) (v : Nat) (s : State) (i : Instr) (hk : regByte k ∉ i.regBytes) :
    Inert k v s i := by
  have hsp := spOf_writeReg_of_ne hk7 v s
  have hle := spOf_le s
  induction i using exec_elim with
  | bad i b hm hb hx => exact inert_of_raise (hx s) (hx _)
  | hlt => exact inert_of_exec exec_hlt rfl rfl
  | ldi r imm =>
    have hr := ne_of_named hk (.head _)
    refine inert_of_exec (exec_ldi r imm) ?_ (readReg_writeReg_of_ne hr.symm _ _)
    rw [writeReg_comm hr]
    rfl
  | prn r =>
    refine inert_of_exec (exec_prn r) ?_ rfl
    rw [readReg_writeReg_of_ne (ne_of_named hk (.head _))]
    rfl
  | jmp r =>
    refine inert_of_exec (exec_jmp r) ?_ rfl
    rw [readReg_writeReg_of_ne (ne_of_named hk (.head _))]
    rfl
  | jeq r =>
    have hfl : flagE (writeReg k v s) = flagE s := rfl
    refine inert_of_exec (exec_jeq r) ?_ ?_
    · rw [readReg_writeReg_of_ne (ne_of_named hk (.head _)), hfl]
      split <;> rfl
    · split <;> rfl
  | jne r =>
    have hfl : flagE (writeReg k v s) = flagE s := rfl
    refine inert_of_exec (exec_jne r) ?_ ?_
    · rw [readReg_writeReg_of_ne (ne_of_named hk (.head _)), hfl]
      split <;> rfl
    · split <;> rfl
  | not r =>
    have hr := ne_of_named hk (.head _)
    refine inert_of_exec (exec_not r) ?_ (readReg_writeReg_of_ne hr.symm _ _)
    rw [readReg_writeReg_of_ne hr, writeReg_comm hr]
    rfl
  | st ra rb =>
    refine inert_of_exec (exec_st ra rb) ?_ rfl
    rw [readReg_writeReg_of_ne (ne_of_named hk (.head _)),
      readReg_writeReg_of_ne (ne_of_named hk (.tail _ (.head _)))]
    rfl
  | cmp ra rb =>
    refine inert_of_exec (exec_cmp ra rb) ?_ rfl
    rw [readReg_writeReg_of_ne (ne_of_named hk (.head _)),
      readReg_writeReg_of_ne (ne_of_named hk (.tail _ (.head _)))]
    rfl
  | push r =>
    rcases Nat.eq_zero_or_pos (spOf s) with h | h
    · exact inert_of_raise (exec_push_zero r h) (exec_push_zero r (hsp.trans h))
    · have hx := exec_push_pos r (hsp ▸ h)
      rw [hsp, readReg_writeReg_of_ne (ne_of_named hk (.head _)), writeReg_comm hk7.symm] at hx
      exact ⟨_, exec_push_pos r h, hx, readReg_writeReg_of_ne hk7 _ _⟩
  | pop r =>
    have hr := ne_of_named hk (.head _)
    rcases Nat.lt_or_ge (spOf s) 255 with h | h
    · have hx := exec_pop_below r (s := writeReg k v s) (by omega)
      rw [hsp, writeReg_comm hk7.symm, writeReg_comm hr] at hx
      refine ⟨_, exec_pop_below r (by omega), hx, ?_⟩
      rw [readReg_advance, readReg_writeReg_of_ne hr.symm, readReg_writeReg_of_ne hk7]
    · exact inert_of_raise (exec_pop_top r (by omega)) (exec_pop_top r (by omega))
  | call r =>
    have hr := ne_of_named hk (.head _)
    rcases Nat.lt_or_ge s.pc.toNat 254 with hpc | hpc
    · rcases Nat.eq_zero_or_pos (spOf s) with h | h
      · exact inert_of_raise (exec_call_zero r (Nat.le_of_lt_succ hpc) h)
          (exec_call_zero r (Nat.le_of_lt_succ hpc) (hsp.trans h))
      · have hx := exec_call_pos r (s := writeReg k v s) (Nat.le_of_lt_succ hpc) (hsp ▸ h)
        rw [hsp, writeReg_comm hk7.symm, readReg_writeReg_of_ne hr] at hx
        exact ⟨_, exec_call_pos r (Nat.le_of_lt_succ hpc) h, hx, readReg_writeReg_of_ne hk7 _ _⟩
    · exact inert_of_raise (exec_call_high r hpc) (exec_call_high r hpc)
  | ret =>
    rcases Nat.lt_or_ge (spOf s) 255 with h | h
    · have hx := exec_ret_below (s := writeReg k v s) (by omega)
      rw [hsp, writeReg_comm hk7.symm] at hx
      exact ⟨_, exec_ret_below (by omega), hx, readReg_writeReg_of_ne hk7 _ _⟩
    · exact inert_of_raise (exec_ret_top (by omega)) (exec_ret_top (by omega))
  | mod ra rb =>
    have hread := readReg_writeReg_of_ne (ne_of_named hk (.tail _ (.head _))) v s
    by_cases hd : readReg rb s = 0
    · exact inert_of_raise (exec_mod_zero ra rb hd) (exec_mod_zero ra rb (hread.trans hd))
    · exact inert_aluRR hk (exec_mod_pos ra rb hd) (exec_mod_pos ra rb (hread ▸ hd))
  | add ra rb => exact inert_aluRR hk (exec_add ..) (exec_add ..)
  | mul ra rb => exact inert_aluRR hk (exec_mul ..) (exec_mul ..)
  | and ra rb => exact inert_aluRR hk (exec_and ..) (exec_and ..)
  | or ra rb => exact inert_aluRR hk (exec_or ..) (exec_or ..)
  | xor ra rb => exact inert_aluRR hk (exec_xor ..) (exec_xor ..)
  | shl ra rb => exact inert_aluRR hk (exec_shl ..) (exec_shl ..)
  | shr ra rb => exact inert_aluRR hk (exec_shr ..) (exec_shr ..)

/-- Settles O39: every instruction's updates commute with a write to a register it does not name. -/
theorem unnamedRegistersAreInert : Obligations.UnnamedRegistersAreInert := by
  unfold Obligations.UnnamedRegistersAreInert
  exact fun i k v s hk7 hk => inert_of_unnamed hk7 v s i hk

end Sys2Proof.Machine
end

section
/-! The decoder as a block (spec/30_encoding.md section 4): the datapath that obeys the control signals does what every
instruction's rule does. -/

namespace Sys2Proof.Machine

open Sys2Proof.Safety

/-! ## The signals of a row -/

@[simp] theorem signals_opByte (o : Op) : signals o.byte = opSignals o := by simp [signals]

@[simp] theorem opSignals_valid (o : Op) : (opSignals o).valid = true := by cases o <;> rfl

@[simp] theorem opSignals_format (o : Op) : (opSignals o).format = o.format := by cases o <;> rfl

/-! ## The register ports -/

theorem firstPort_of_format_n {o : Op} (h : o.format = .n) (b : Byte) : firstPort (opSignals o) b = .ok 0 := by
  rw [firstPort, opSignals_format, if_pos h]

theorem firstPort_of_format_ne {o : Op} (h : o.format ≠ .n) (b : Byte) : firstPort (opSignals o) b = regIdx b := by
  rw [firstPort, opSignals_format, if_neg h]

theorem secondPort_of_format_rr {o : Op} (h : o.format = .rr) (b : Byte) : secondPort (opSignals o) b = regIdx b := by
  rw [secondPort, opSignals_format, if_pos h]

theorem secondPort_of_format_ne {o : Op} (h : o.format ≠ .rr) (b : Byte) : secondPort (opSignals o) b = .ok 0 := by
  rw [secondPort, opSignals_format, if_neg h]

/-- A byte that is not above 7 is some register's. -/
theorem exists_regIdx {b : Byte} (h : ¬ 7 < b.toNat) : ∃ r, regIdx b = .ok r := by
  rcases regIdx_cases b with ⟨r, -, hr⟩ | ⟨hb, -⟩
  · exact ⟨r, hr⟩
  · exact absurd hb h

/-! ## The datapath in two parts: its checks, and the state it leaves -/

/-- The state the datapath leaves where no check stops it. -/
def datapathState (g : Signals) (r1 r2 : RegIdx) (b2 : Byte) (s : State) : State :=
  pcStage g r1 s (effectStage g r1 s (flagStage g r1 r2 s (regStage g r1 r2 b2 s (memStage g r1 r2 s (spStage g s)))))

/-- The datapath over an opcode of the table. -/
theorem datapath_opByte (o : Op) (b1 b2 : Byte) (s : State) :
    datapath o.byte b1 b2 s = do
      let r1 ← firstPort (opSignals o) b1
      let r2 ← secondPort (opSignals o) b2
      checkStage (opSignals o) r1 r2 s
      return datapathState (opSignals o) r1 r2 b2 s := by
  simp [datapath, datapathState]

/-- Once the ports carry registers, the checks decide. -/
theorem datapath_of_ports {o : Op} {b1 b2 : Byte} {r1 r2 : RegIdx} {s : State} (h1 : firstPort (opSignals o) b1 = .ok r1)
    (h2 : secondPort (opSignals o) b2 = .ok r2) :
    datapath o.byte b1 b2 s = (checkStage (opSignals o) r1 r2 s).map fun _ => datapathState (opSignals o) r1 r2 b2 s := by
  rw [datapath_opByte, h1, ok_bind, h2, ok_bind]
  rfl

/-- The first bad register byte stops the datapath at its port, with the fault of R114. -/
theorem datapath_badRegByte {i : Instr} {b : Byte} (hb : i.badRegByte = some b) (s : State) :
    datapath i.op.byte (i.operands.getD 0 0) (i.operands.getD 1 0) s = .error (addressOutOfBounds .reg b.toNat) := by
  rw [badRegByte_eq] at hb
  rw [datapath_opByte]
  split_ifs at hb with h1 h2
  · cases hb
    rw [firstPort_of_format_ne h1.1, regIdx_bad h1.2, error_bind]
  · cases hb
    have hn : i.op.format ≠ .n := by rw [h2.1]; nofun
    obtain ⟨r, hr⟩ := exists_regIdx (fun h => h1 ⟨hn, h⟩)
    rw [firstPort_of_format_ne hn, hr, ok_bind, secondPort_of_format_rr h2.1, regIdx_bad h2.2, error_bind]

/-! ## The checks -/

/-- A row that moves no stack pointer and pushes no return address is stopped by the ALU's zero-divisor output alone. -/
theorem checkStage_of_hold {g : Signals} (r1 r2 : RegIdx) (s : State) (hsp : g.sp = .hold) (hw : g.wdata ≠ .returnAddress) :
    checkStage g r1 r2 s = raiseIf (aluPort g (readReg r1 s) (readReg r2 s)).div0 divisionByZero := by
  simp [checkStage, hsp, hw]

/-- A check after which nothing is left to do. -/
@[simp] theorem bind_ok_unit (x : Except Trap Unit) : (x >>= fun _ => Except.ok ()) = x := by
  cases x <;> rfl

/-- A row that moves the stack pointer down is stopped at 0, unless it pushes a return address beyond memory first. -/
theorem checkStage_of_dec {g : Signals} (r1 r2 : RegIdx) (s : State) (hsp : g.sp = .dec) (hop : g.aluOp = none) :
    checkStage g r1 r2 s = (do
      raiseIf (g.wdata = .returnAddress && 255 < s.pc.toNat + 2) (addressOutOfBounds .mem 256)
      raiseIf (spOf s = 0) (addressOutOfBounds .mem (-1))) := by
  simp [checkStage, hsp, aluPort, hop, spOf]
  rfl

/-- A row that moves the stack pointer up is stopped at 255. -/
theorem checkStage_of_inc {g : Signals} (r1 r2 : RegIdx) (s : State) (hsp : g.sp = .inc) (hw : g.wdata ≠ .returnAddress)
    (hop : g.aluOp = none) : checkStage g r1 r2 s = raiseIf (spOf s = 255) (addressOutOfBounds .mem 256) := by
  simp [checkStage, hsp, hw, aluPort, hop, spOf]
  rfl

/-! ## The answers of the datapath -/

section
variable {o : Op} {b1 b2 : Byte} {r1 r2 : RegIdx} {s : State}

/-- Where the checks pass, the datapath answers the state it leaves. -/
theorem datapath_answers (h1 : firstPort (opSignals o) b1 = .ok r1) (h2 : secondPort (opSignals o) b2 = .ok r2)
    (hc : checkStage (opSignals o) r1 r2 s = .ok ()) :
    conclude s (datapath o.byte b1 b2 s) = .next (datapathState (opSignals o) r1 r2 b2 s) := by
  rw [datapath_of_ports h1 h2, hc]
  rfl

/-- Where a check fails, the datapath takes its fault. -/
theorem datapath_faults {e : Trap} (h1 : firstPort (opSignals o) b1 = .ok r1) (h2 : secondPort (opSignals o) b2 = .ok r2)
    (hc : checkStage (opSignals o) r1 r2 s = .error e) :
    conclude s (datapath o.byte b1 b2 s) = .next (raise e s) := by
  rw [datapath_of_ports h1 h2, hc]
  rfl

/-- An operation of format R carries its register on the first port. -/
theorem ports_of_format_r (h : o.format = .r) (r : RegIdx) (b2 : Byte) :
    firstPort (opSignals o) (regByte r) = .ok r ∧ secondPort (opSignals o) b2 = .ok 0 :=
  ⟨(firstPort_of_format_ne (by rw [h]; nofun) _).trans (regIdx_regByte r), secondPort_of_format_ne (by rw [h]; nofun) _⟩

/-- An operation of format RR carries its registers on the two ports. -/
theorem ports_of_format_rr (h : o.format = .rr) (ra rb : RegIdx) :
    firstPort (opSignals o) (regByte ra) = .ok ra ∧ secondPort (opSignals o) (regByte rb) = .ok rb :=
  ⟨(firstPort_of_format_ne (by rw [h]; nofun) _).trans (regIdx_regByte ra),
    (secondPort_of_format_rr h _).trans (regIdx_regByte rb)⟩

/-- A format R operation that moves no stack pointer and uses no divisor passes the checks. -/
theorem datapath_answers_r (h : o.format = .r) (hsp : (opSignals o).sp = .hold)
    (hw : (opSignals o).wdata ≠ .returnAddress)
    (hdiv : ∀ a b, (aluPort (opSignals o) a b).div0 = false) (r : RegIdx) (b2 : Byte) :
    conclude s (datapath o.byte (regByte r) b2 s) = .next (datapathState (opSignals o) r 0 b2 s) := by
  obtain ⟨h1, h2⟩ := ports_of_format_r h r b2
  exact datapath_answers h1 h2 (by rw [checkStage_of_hold _ _ _ hsp hw, hdiv, raiseIf_false])

/-- A format RR operation passes the checks where the ALU signals no zero divisor. -/
theorem datapath_answers_rr (h : o.format = .rr) (hsp : (opSignals o).sp = .hold)
    (hw : (opSignals o).wdata ≠ .returnAddress) {ra rb : RegIdx}
    (hdiv : (aluPort (opSignals o) (readReg ra s) (readReg rb s)).div0 = false) :
    conclude s (datapath o.byte (regByte ra) (regByte rb) s) =
      .next (datapathState (opSignals o) ra rb (regByte rb) s) := by
  obtain ⟨h1, h2⟩ := ports_of_format_rr h ra rb
  exact datapath_answers h1 h2 (by rw [checkStage_of_hold _ _ _ hsp hw, hdiv, raiseIf_false])

end

/-! ## The states the datapath leaves -/

/-- A register write keeps the low byte, cut before or in the write (10_state.md R21). -/
theorem writeReg_ofNat_toNat (r : RegIdx) (v : Nat) (s : State) :
    writeReg r (BitVec.ofNat 8 v).toNat s = writeReg r v s := by
  rw [writeReg, BitVec.ofNat_toNat, BitVec.setWidth_eq, writeReg]

/-- A row of an ALU operation that writes its result leaves the exact result's low byte in the first register. -/
theorem datapathState_alu (f : Format) (op : AluOp) (r1 r2 : RegIdx) (b2 : Byte) (s : State) :
    datapathState (aluSignals f op) r1 r2 b2 s =
      advance f.len (writeReg r1 (aluExact (readReg r1 s) (readReg r2 s) op) s) := by
  rw [← writeReg_ofNat_toNat]
  rfl

/-- The address of a push is the stack pointer's after its move. -/
theorem storeByte_newSp (v : Byte) (s : State) :
    storeByte (readReg Config.sp (writeReg Config.sp ((readReg Config.sp s).toNat - 1) s)).toNat v
      (writeReg Config.sp ((readReg Config.sp s).toNat - 1) s) = storeByte (spOf s - 1) v (writeReg 7 (spOf s - 1) s) :=
  congrArg (storeByte · v _) (spOf_writeReg (by have := spOf_le s; omega) s)

/-! ## The datapath and the instruction rules -/

/-- What an instruction raises, its register bytes all naming registers, the datapath raises. -/
theorem datapath_of_execTrap {s : State} {i : Instr} {e : Trap} (h : ExecTrap s i e) (hb : i.badRegByte = none) :
    conclude s (datapath i.op.byte (i.operands.getD 0 0) (i.operands.getD 1 0) s) = .next (raise e s) := by
  cases h with
  | register i b hm hbad =>
    obtain ⟨c, hc⟩ := exists_badRegByte hm hbad
    rw [hb] at hc
    cases hc
  | pushBound r h =>
    obtain ⟨h1, h2⟩ := ports_of_format_r (o := .push) rfl r 0
    refine datapath_faults (o := .push) h1 h2 ?_
    rw [checkStage_of_dec _ _ _ rfl rfl, h]
    rfl
  | popBound r h =>
    obtain ⟨h1, h2⟩ := ports_of_format_r (o := .pop) rfl r 0
    refine datapath_faults (o := .pop) h1 h2 ?_
    rw [checkStage_of_inc _ _ _ rfl (by decide) rfl, h]
    rfl
  | retBound h =>
    refine datapath_faults (o := .ret) (firstPort_of_format_n rfl _) (secondPort_of_format_ne (by decide) _) ?_
    rw [checkStage_of_inc _ _ _ rfl (by decide) rfl, h]
    rfl
  | callReturn r h =>
    obtain ⟨h1, h2⟩ := ports_of_format_r (o := .call) rfl r 0
    refine datapath_faults (o := .call) h1 h2 ?_
    rw [checkStage_of_dec _ _ _ rfl rfl, decide_eq_true (show 255 < s.pc.toNat + 2 by omega)]
    rfl
  | callBound r hpc h =>
    obtain ⟨h1, h2⟩ := ports_of_format_r (o := .call) rfl r 0
    refine datapath_faults (o := .call) h1 h2 ?_
    rw [checkStage_of_dec _ _ _ rfl rfl, decide_eq_false (show ¬ 255 < s.pc.toNat + 2 by omega), h]
    rfl
  | divisor ra rb h =>
    obtain ⟨h1, h2⟩ := ports_of_format_rr (o := .mod) rfl ra rb
    refine datapath_faults (o := .mod) h1 h2 ?_
    rw [checkStage_of_hold _ _ _ rfl (by decide), h]
    rfl

/-- What an instruction does, its register bytes all naming registers, the datapath answers. -/
theorem datapath_of_does {s t : State} {i : Instr} (h : Does s i t) (hb : i.badRegByte = none) :
    conclude s (datapath i.op.byte (i.operands.getD 0 0) (i.operands.getD 1 0) s) = .next t := by
  cases h with
  | fault i e he => exact datapath_of_execTrap he hb
  | hlt =>
    exact datapath_answers (o := .hlt) (firstPort_of_format_n rfl _) (secondPort_of_format_ne (by decide) _)
      (checkStage_of_hold _ _ _ rfl (by decide))
  | ldi r imm =>
    exact datapath_answers (o := .ldi) ((firstPort_of_format_ne (by decide) _).trans (regIdx_regByte r))
      (secondPort_of_format_ne (by decide) _) (checkStage_of_hold _ _ _ rfl (by decide))
  | prn r => exact datapath_answers_r (o := .prn) rfl rfl (by decide) (fun _ _ => rfl) r 0
  | jmp r => exact datapath_answers_r (o := .jmp) rfl rfl (by decide) (fun _ _ => rfl) r 0
  | jeq r => exact datapath_answers_r (o := .jeq) rfl rfl (by decide) (fun _ _ => rfl) r 0
  | jne r => exact datapath_answers_r (o := .jne) rfl rfl (by decide) (fun _ _ => rfl) r 0
  | not r =>
    exact (datapath_answers_r (o := .not) rfl rfl (by decide) (fun _ _ => rfl) r 0).trans
      (congrArg _ (datapathState_alu .r .not r 0 0 s))
  | st ra rb => exact datapath_answers_rr (o := .st) rfl rfl (by decide) rfl
  | cmp ra rb => exact datapath_answers_rr (o := .cmp) rfl rfl (by decide) rfl
  | push r hsp =>
    obtain ⟨h1, h2⟩ := ports_of_format_r (o := .push) rfl r 0
    refine (datapath_answers (o := .push) h1 h2 ?_).trans (congrArg (Host.Outcome.next ∘ advance 2) (storeByte_newSp _ s))
    rw [checkStage_of_dec _ _ _ rfl rfl, decide_eq_false (Nat.ne_of_gt hsp)]
    rfl
  | pop r hsp =>
    obtain ⟨h1, h2⟩ := ports_of_format_r (o := .pop) rfl r 0
    refine datapath_answers (o := .pop) h1 h2 ?_
    rw [checkStage_of_inc _ _ _ rfl (by decide) rfl, decide_eq_false (Nat.ne_of_lt (Nat.lt_succ_of_le hsp))]
    rfl
  | call r hpc hsp =>
    obtain ⟨h1, h2⟩ := ports_of_format_r (o := .call) rfl r 0
    refine (datapath_answers (o := .call) h1 h2 ?_).trans
      (congrArg (fun t => Host.Outcome.next (jump (readReg r t) t)) (storeByte_newSp _ s))
    rw [checkStage_of_dec _ _ _ rfl rfl, decide_eq_false (Nat.ne_of_gt hsp),
      decide_eq_false (show ¬ 255 < s.pc.toNat + 2 by omega)]
    rfl
  | ret hsp =>
    refine datapath_answers (o := .ret) (firstPort_of_format_n rfl _) (secondPort_of_format_ne (by decide) _) ?_
    rw [checkStage_of_inc _ _ _ rfl (by decide) rfl, decide_eq_false (Nat.ne_of_lt (Nat.lt_succ_of_le hsp))]
    rfl
  | add ra rb =>
    exact (datapath_answers_rr (o := .add) rfl rfl (by decide) rfl).trans (congrArg _ (datapathState_alu ..))
  | mul ra rb =>
    exact (datapath_answers_rr (o := .mul) rfl rfl (by decide) rfl).trans (congrArg _ (datapathState_alu ..))
  | and ra rb =>
    exact (datapath_answers_rr (o := .and) rfl rfl (by decide) rfl).trans (congrArg _ (datapathState_alu ..))
  | or ra rb =>
    exact (datapath_answers_rr (o := .or) rfl rfl (by decide) rfl).trans (congrArg _ (datapathState_alu ..))
  | xor ra rb =>
    exact (datapath_answers_rr (o := .xor) rfl rfl (by decide) rfl).trans (congrArg _ (datapathState_alu ..))
  | shl ra rb =>
    exact (datapath_answers_rr (o := .shl) rfl rfl (by decide) rfl).trans (congrArg _ (datapathState_alu ..))
  | shr ra rb =>
    exact (datapath_answers_rr (o := .shr) rfl rfl (by decide) rfl).trans (congrArg _ (datapathState_alu ..))
  | mod ra rb hd =>
    have hdiv : (aluPort (opSignals .mod) (readReg ra s) (readReg rb s)).div0 = false := beq_eq_false_iff_ne.mpr hd
    exact (datapath_answers_rr (o := .mod) rfl rfl (by decide) hdiv).trans (congrArg _ (datapathState_alu ..))

/-- Settles O48: a bad register byte stops both alike; else the datapath answers what the instruction does. -/
theorem decoderSignalsDriveEveryInstruction : Obligations.DecoderSignalsDriveEveryInstruction := by
  unfold Obligations.DecoderSignalsDriveEveryInstruction
  intro i s
  cases hb : i.badRegByte with
  | some b => rw [exec_badRegByte hb, datapath_badRegByte hb, conclude_error]
  | none =>
    obtain ⟨t, ht, hd⟩ := exec_does i s
    rw [ht, datapath_of_does hd hb]

end Sys2Proof.Machine
end
